-- ==== Sys2Proof/Word.lean ====
section
/-! DEFINITION. The word types of the core and the index types that carry their own range (R7, R9, R10). -/

namespace Sys2Proof

/-- A byte, bit 0 least significant (R10); `SEGW = 8`, `NKEY = 8` (R7). -/
abbrev Byte := BitVec 8

/-- A command word: 64 bits presented whole on the command port (R60). -/
abbrev CommandWord := BitVec 64

/-- The raw key-scan word: `KSW = 32` bits (R7, R49). -/
abbrev KeyWord := BitVec 32

/-- A digit position in range: `N = 8` (R7). Logical position 0 is the rightmost (R16). -/
abbrev Position := Fin 8

/-- A color-LED index in range: `NLED = 8` (R7). -/
abbrev LedIndex := Fin 8

/-- An address of the chip register space: `NREG = 16` (R7, R40). -/
abbrev RegAddr := Fin 16

/-- The seven segments of a digit, by the letters of R20. Which bar of the digit a letter names is not fixed by any rule. -/
inductive Segment where
  | a
  | b
  | c
  | d
  | e
  | f
  | g
deriving DecidableEq, Repr

/-- The width classes of a print value, `WCLASS = {8, 16, 32}` (R7). -/
inductive WidthClass where
  | w8
  | w16
  | w32
deriving DecidableEq, Repr

/-- The number of bits `W` of a width class (R62). -/
def WidthClass.bits : WidthClass → Nat
  | .w8 => 8
  | .w16 => 16
  | .w32 => 32

end Sys2Proof
end

