-- ==== Sys2Proof/Syntax.lean ====
section
/-! DEFINITION. The 22 commands of R63, one constructor per row of the opcode table, and the five formats of R61. -/

namespace Sys2Proof

/-- A command with its operands as 8-bit or 32-bit fields (R19, R60, R63). The constructors stand in the table's order. -/
inductive Instr where
  /-- `ENC a`: the glyph of a digit value (R83). -/
  | enc (a : Byte)
  /-- `SWPP a`: logical digit position to physical column (R91). -/
  | swpp (a : Byte)
  /-- `SWPL a`: logical LED index to physical LED offset (R92). -/
  | swpl (a : Byte)
  /-- `SWPB a`: reverse the bits of a byte (R93). -/
  | swpb (a : Byte)
  /-- `SETSEG a, b`: position, segment byte (R101). -/
  | setseg (a b : Byte)
  /-- `SETDIG a, b`: position, digit value (R102). -/
  | setdig (a b : Byte)
  /-- `DOTON a`: light the decimal point of a position (R103). -/
  | doton (a : Byte)
  /-- `DOTOFF a`: put out the decimal point of a position (R104). -/
  | dotoff (a : Byte)
  /-- `SETDOTS a`: replace the dot mask (R105). -/
  | setdots (a : Byte)
  /-- `REFRESH`: push the whole display state to the chip (R106). -/
  | refresh
  /-- `CLEAR`: blank the state and the chip (R107). -/
  | clear
  /-- `SETCUR a`: set the print cursor (R108). -/
  | setcur (a : Byte)
  /-- `PRINTU8 value, radix, maxDigits, pad` (R127); `val` is the whole 32-bit field. -/
  | printu8 (val : BitVec 32) (rdx mxd pad : Byte)
  /-- `PRINTU16 value, radix, maxDigits, pad` (R128). -/
  | printu16 (val : BitVec 32) (rdx mxd pad : Byte)
  /-- `PRINTU32 value, radix, maxDigits, pad` (R129). -/
  | printu32 (val : BitVec 32) (rdx mxd pad : Byte)
  /-- `PRINTS8 value, radix, maxDigits` (R130). -/
  | prints8 (val : BitVec 32) (rdx mxd : Byte)
  /-- `PRINTS16 value, radix, maxDigits` (R131). -/
  | prints16 (val : BitVec 32) (rdx mxd : Byte)
  /-- `PRINTS32 value, radix, maxDigits` (R132). -/
  | prints32 (val : BitVec 32) (rdx mxd : Byte)
  /-- `SETLED a, b`: LED index, color (R150). -/
  | setled (a b : Byte)
  /-- `LEDSON a, b`: LED mask, color (R151). -/
  | ledson (a b : Byte)
  /-- `LEDSOFF a`: LED mask (R152). -/
  | ledsoff (a : Byte)
  /-- `GETBTN`: read the buttons (R153). -/
  | getbtn
deriving DecidableEq, Repr

/-- The unsigned print command of a width class (R127, R128, R129). -/
def Instr.printUnsigned (W : WidthClass) (val : BitVec 32) (rdx mxd pad : Byte) : Instr :=
  match W with
  | .w8 => .printu8 val rdx mxd pad
  | .w16 => .printu16 val rdx mxd pad
  | .w32 => .printu32 val rdx mxd pad

/-- The signed print command of a width class (R130, R131, R132). -/
def Instr.printSigned (W : WidthClass) (val : BitVec 32) (rdx mxd : Byte) : Instr :=
  match W with
  | .w8 => .prints8 val rdx mxd
  | .w16 => .prints16 val rdx mxd
  | .w32 => .prints32 val rdx mxd

/-- The five formats of R61. -/
inductive Format where
  | Z
  | A
  | AB
  | PU
  | PS
deriving DecidableEq, Repr

/-- The format of each command (R61, R63). -/
def Instr.format : Instr → Format
  | .enc _ => .A
  | .swpp _ => .A
  | .swpl _ => .A
  | .swpb _ => .A
  | .setseg _ _ => .AB
  | .setdig _ _ => .AB
  | .doton _ => .A
  | .dotoff _ => .A
  | .setdots _ => .A
  | .refresh => .Z
  | .clear => .Z
  | .setcur _ => .A
  | .printu8 _ _ _ _ => .PU
  | .printu16 _ _ _ _ => .PU
  | .printu32 _ _ _ _ => .PU
  | .prints8 _ _ _ => .PS
  | .prints16 _ _ _ => .PS
  | .prints32 _ _ _ => .PS
  | .setled _ _ => .AB
  | .ledson _ _ => .AB
  | .ledsoff _ => .A
  | .getbtn => .Z

end Sys2Proof
end

