-- ==== Sys2Proof/WellFormed.lean ====
section
/-! DEFINITION. Which terms of `Instr` the decoder can produce: the value of a print command is already cut to its width
class (R62, R64). Every other operand fills its field, so any value of it is well formed (R65 (3)). -/

namespace Sys2Proof

/-- The print value has no bit above `W - 1` (R62). -/
def fitsWidth (W : WidthClass) (val : BitVec 32) : Bool := decide (val.toNat < 2 ^ W.bits)

/-- The well-formed commands. -/
def Instr.wellFormed : Instr → Bool
  | .enc _ => true
  | .swpp _ => true
  | .swpl _ => true
  | .swpb _ => true
  | .setseg _ _ => true
  | .setdig _ _ => true
  | .doton _ => true
  | .dotoff _ => true
  | .setdots _ => true
  | .refresh => true
  | .clear => true
  | .setcur _ => true
  | .printu8 v _ _ _ => fitsWidth .w8 v
  | .printu16 v _ _ _ => fitsWidth .w16 v
  | .printu32 v _ _ _ => fitsWidth .w32 v
  | .prints8 v _ _ => fitsWidth .w8 v
  | .prints16 v _ _ => fitsWidth .w16 v
  | .prints32 v _ _ => fitsWidth .w32 v
  | .setled _ _ => true
  | .ledson _ _ => true
  | .ledsoff _ => true
  | .getbtn => true

end Sys2Proof
end

