-- ==== Sys2Proof/Decode.lean ====
section
/-! DEFINITION. The decoder, total on 64-bit command words (R60 to R65), and after it the encoder. -/

namespace Sys2Proof

/-- `op = cmd[63:56]` (R60). -/
def opField (cmd : CommandWord) : Byte := cmd.extractLsb' 56 8
/-- `rdx = cmd[55:48]` (R60). -/
def rdxField (cmd : CommandWord) : Byte := cmd.extractLsb' 48 8
/-- `mxd = cmd[47:40]` (R60). -/
def mxdField (cmd : CommandWord) : Byte := cmd.extractLsb' 40 8
/-- `pad = cmd[39:32]` (R60). -/
def padField (cmd : CommandWord) : Byte := cmd.extractLsb' 32 8
/-- `b = cmd[15:8]` (R60). -/
def bField (cmd : CommandWord) : Byte := cmd.extractLsb' 8 8
/-- `a = cmd[7:0]` (R60). -/
def aField (cmd : CommandWord) : Byte := cmd.extractLsb' 0 8
/-- `val = cmd[31:0]` cut to `cmd[W-1:0]` (R60, R62, R64). -/
def valField (W : WidthClass) (cmd : CommandWord) : BitVec 32 := (cmd.extractLsb' 0 W.bits).setWidth 32

/-- Why the decoder gives no command: the one case is an opcode that R63 does not list (R65 (1)). -/
inductive DecodeError where
  | reservedOpcode (op : Byte)
deriving DecidableEq, Repr

/-- The decoder of R64: an exact match on the eight bits of `op`, then the operand fields of the row's format.
Bits outside the format are ignored (R65 (2)). -/
def decode (cmd : CommandWord) : Except DecodeError Instr :=
  match opField cmd with
  | 0x10#8 => .ok (.enc (aField cmd))
  | 0x11#8 => .ok (.swpp (aField cmd))
  | 0x12#8 => .ok (.swpl (aField cmd))
  | 0x13#8 => .ok (.swpb (aField cmd))
  | 0x20#8 => .ok (.setseg (aField cmd) (bField cmd))
  | 0x21#8 => .ok (.setdig (aField cmd) (bField cmd))
  | 0x22#8 => .ok (.doton (aField cmd))
  | 0x23#8 => .ok (.dotoff (aField cmd))
  | 0x24#8 => .ok (.setdots (aField cmd))
  | 0x25#8 => .ok .refresh
  | 0x26#8 => .ok .clear
  | 0x27#8 => .ok (.setcur (aField cmd))
  | 0x30#8 => .ok (.printu8 (valField .w8 cmd) (rdxField cmd) (mxdField cmd) (padField cmd))
  | 0x31#8 => .ok (.printu16 (valField .w16 cmd) (rdxField cmd) (mxdField cmd) (padField cmd))
  | 0x32#8 => .ok (.printu32 (valField .w32 cmd) (rdxField cmd) (mxdField cmd) (padField cmd))
  | 0x34#8 => .ok (.prints8 (valField .w8 cmd) (rdxField cmd) (mxdField cmd))
  | 0x35#8 => .ok (.prints16 (valField .w16 cmd) (rdxField cmd) (mxdField cmd))
  | 0x36#8 => .ok (.prints32 (valField .w32 cmd) (rdxField cmd) (mxdField cmd))
  | 0x40#8 => .ok (.setled (aField cmd) (bField cmd))
  | 0x41#8 => .ok (.ledson (aField cmd) (bField cmd))
  | 0x42#8 => .ok (.ledsoff (aField cmd))
  | 0x43#8 => .ok .getbtn
  | op => .error (.reservedOpcode op)

/-- The host's view of `decode` on a word whose bits the opcode table numbers; a command is one 64-bit word, so the table's
numbering is the word's own (R60). Bits at `nbits` and above are zero. -/
def decodeTableWord (nbits w : Nat) : Option Instr :=
  match decode (BitVec.ofNat 64 (w % 2 ^ nbits)) with
  | .ok i => some i
  | .error _ => none

/-- The opcode of a command (R63). -/
def Instr.opcode : Instr → Byte
  | .enc _ => 0x10#8
  | .swpp _ => 0x11#8
  | .swpl _ => 0x12#8
  | .swpb _ => 0x13#8
  | .setseg _ _ => 0x20#8
  | .setdig _ _ => 0x21#8
  | .doton _ => 0x22#8
  | .dotoff _ => 0x23#8
  | .setdots _ => 0x24#8
  | .refresh => 0x25#8
  | .clear => 0x26#8
  | .setcur _ => 0x27#8
  | .printu8 _ _ _ _ => 0x30#8
  | .printu16 _ _ _ _ => 0x31#8
  | .printu32 _ _ _ _ => 0x32#8
  | .prints8 _ _ _ => 0x34#8
  | .prints16 _ _ _ => 0x35#8
  | .prints32 _ _ _ => 0x36#8
  | .setled _ _ => 0x40#8
  | .ledson _ _ => 0x41#8
  | .ledsoff _ => 0x42#8
  | .getbtn => 0x43#8

/-- The 22 opcodes of R63, in the table's order. -/
def opcodes : List Byte :=
  [0x10#8, 0x11#8, 0x12#8, 0x13#8, 0x20#8, 0x21#8, 0x22#8, 0x23#8, 0x24#8, 0x25#8, 0x26#8, 0x27#8] ++
  [0x30#8, 0x31#8, 0x32#8, 0x34#8, 0x35#8, 0x36#8, 0x40#8, 0x41#8, 0x42#8, 0x43#8]

/-- Fields of R60 laid side by side, the opcode in the high bits. -/
def packWord (op rdx mxd pad : Byte) (val : BitVec 32) : CommandWord := op ++ rdx ++ mxd ++ pad ++ val

/-- The word of a format `Z` command (R61). -/
def wordZ (op : Byte) : CommandWord := packWord op 0 0 0 0
/-- The word of a format `A` command (R61). -/
def wordA (op a : Byte) : CommandWord := packWord op 0 0 0 (a.setWidth 32)
/-- The word of a format `AB` command (R61). -/
def wordAB (op a b : Byte) : CommandWord := packWord op 0 0 0 ((b ++ a).setWidth 32)
/-- The word of a format `PU` command (R61). -/
def wordPU (op : Byte) (val : BitVec 32) (rdx mxd pad : Byte) : CommandWord := packWord op rdx mxd pad val
/-- The word of a format `PS` command (R61). -/
def wordPS (op : Byte) (val : BitVec 32) (rdx mxd : Byte) : CommandWord := packWord op rdx mxd 0 val

/-- The word of a command, with zeros in the bits its format ignores (R65 (2): "Assemblers emit zeros there"). -/
def encode : Instr → CommandWord
  | .enc a => wordA 0x10#8 a
  | .swpp a => wordA 0x11#8 a
  | .swpl a => wordA 0x12#8 a
  | .swpb a => wordA 0x13#8 a
  | .setseg a b => wordAB 0x20#8 a b
  | .setdig a b => wordAB 0x21#8 a b
  | .doton a => wordA 0x22#8 a
  | .dotoff a => wordA 0x23#8 a
  | .setdots a => wordA 0x24#8 a
  | .refresh => wordZ 0x25#8
  | .clear => wordZ 0x26#8
  | .setcur a => wordA 0x27#8 a
  | .printu8 v r m p => wordPU 0x30#8 v r m p
  | .printu16 v r m p => wordPU 0x31#8 v r m p
  | .printu32 v r m p => wordPU 0x32#8 v r m p
  | .prints8 v r m => wordPS 0x34#8 v r m
  | .prints16 v r m => wordPS 0x35#8 v r m
  | .prints32 v r m => wordPS 0x36#8 v r m
  | .setled a b => wordAB 0x40#8 a b
  | .ledson a b => wordAB 0x41#8 a b
  | .ledsoff a => wordA 0x42#8 a
  | .getbtn => wordZ 0x43#8

/-- The bits of a word that the format of opcode `op` names, the value cut to its width class; every other bit is ignored
(R61, R62, R65 (2)). A reserved opcode names only `op` itself. -/
def usedBits (op : Byte) : CommandWord :=
  match op with
  | 0x10#8 | 0x11#8 | 0x12#8 | 0x13#8 => 0xFF000000000000FF#64
  | 0x20#8 | 0x21#8 => 0xFF0000000000FFFF#64
  | 0x22#8 | 0x23#8 | 0x24#8 | 0x27#8 => 0xFF000000000000FF#64
  | 0x30#8 => 0xFFFFFFFF000000FF#64
  | 0x31#8 => 0xFFFFFFFF0000FFFF#64
  | 0x32#8 => 0xFFFFFFFFFFFFFFFF#64
  | 0x34#8 => 0xFFFFFF00000000FF#64
  | 0x35#8 => 0xFFFFFF000000FFFF#64
  | 0x36#8 => 0xFFFFFF00FFFFFFFF#64
  | 0x40#8 | 0x41#8 => 0xFF0000000000FFFF#64
  | 0x42#8 => 0xFF000000000000FF#64
  | _ => 0xFF00000000000000#64

end Sys2Proof
end

