-- ==== Sys2Proof/Machine/Params.lean ====
section
/-! DEFINITION. The named parameters of R8, as one record of plain data that stands in the state and that no step changes;
what makes a record admissible; and the record of the defaults (notes/assumptions/3.md to 6.md and 32.md). -/

namespace Sys2Proof.Machine

/-- The parameters that "the model takes as configuration" (R8, decision D28). -/
structure Params where
  /-- `SEGTAB`, the glyphs of the digit values 0 to 15 (R82). -/
  segTab : Vector Byte 16
  /-- `SEG_OFF`, no segment lit (R84). -/
  segOff : Byte
  /-- `SEG_MINUS`, the minus glyph of the overflow run and of the sign (R84). -/
  segMinus : Byte
  /-- `SEG_DEGREE`, the degree glyph; used by no command of the core (R84). -/
  segDegree : Byte
  /-- `SEG_CELSIUS`, the Celsius glyph; used by no command of the core (R84). -/
  segCelsius : Byte
  /-- `COLOR_OFF` (R155). -/
  colorOff : BitVec 2
  /-- `COLOR_RED` (R155). -/
  colorRed : BitVec 2
  /-- `COLOR_GREEN` (R155). -/
  colorGreen : BitVec 2
  /-- `NDCAP`, the value at which the digit count saturates (R120). -/
  ndCap : Nat
deriving DecidableEq, Repr

/-- The constraints that the source puts on the parameters (R8, R82, R84; U5 for `NDCAP`). -/
structure Params.Admissible (P : Params) : Prop where
  /-- `SEGTAB[0]` is the source's (R81). -/
  entry0 : P.segTab[0] = 0b00111111
  /-- `SEGTAB[15]` is the source's (R81). -/
  entry15 : P.segTab[15] = 0b01110001
  /-- Every table entry has bit 7 clear (R82). -/
  tabClean : ∀ k : Fin 16, (P.segTab[k.val]).getLsbD 7 = false
  /-- The entries 10 to 15 have distinguishable shapes: no two of them are the same byte (R82; notes/assumptions/3.md). -/
  hexShapes : ∀ j k : Fin 16, 10 ≤ j.val → 10 ≤ k.val → P.segTab[j.val] = P.segTab[k.val] → j = k
  /-- "All-off" is zero (R8, R84). -/
  offZero : P.segOff = 0x00
  /-- The minus glyph has bit 7 clear (R8). -/
  minusClean : P.segMinus.getLsbD 7 = false
  /-- The degree glyph has bit 7 clear (R8). -/
  degreeClean : P.segDegree.getLsbD 7 = false
  /-- The Celsius glyph has bit 7 clear (R8). -/
  celsiusClean : P.segCelsius.getLsbD 7 = false
  /-- The set of the color codes is 00, 01, 10; 11 is invalid (R8). -/
  colors : ∀ c : BitVec 2, c ≠ 0b11 ↔ c = P.colorOff ∨ c = P.colorRed ∨ c = P.colorGreen
  /-- The cap is the spec's 9 or the literal 8 (U5). -/
  cap : P.ndCap = 8 ∨ P.ndCap = 9

/-- The default table (R82). Entries 0 and 15 are the source's (R81); 1 to 14 are "from general knowledge" (G1). -/
def defaultSegTab : Vector Byte 16 :=
  #v[0b00111111, 0b00000110, 0b01011011, 0b01001111, 0b01100110, 0b01101101, 0b01111101, 0b00000111,
     0b01111111, 0b01101111, 0b01110111, 0b01111100, 0b00111001, 0b01011110, 0b01111001, 0b01110001]

/-- The defaults of R8: the glyphs of R82 and R84 (G1 to G4), the color codes of decision D10, the cap of decision D13. -/
def defaultParams : Params where
  segTab := defaultSegTab
  segOff := 0x00
  segMinus := 0x40
  segDegree := 0x63
  segCelsius := 0x39
  colorOff := 0b00
  colorRed := 0b01
  colorGreen := 0b10
  ndCap := 9

end Sys2Proof.Machine
end

