-- ==== Sys2Proof/Machine/Operands.lean ====
section
/-! DEFINITION. The pure functions of the core: bit positions (R90), chip addresses (R42, R43), glyphs (R80), key decoding
(R154), and the numbers a print command works with (R62, R120, R126). None reads the state. -/

namespace Sys2Proof.Machine

/-- Bit `i` of a byte, as a byte: `(b >> i) & 1` (R10). -/
def bitOf (b : Byte) (i : Nat) : Byte := (b >>> i) &&& 1#8

/-! ### The segment byte -/

/-- The bit of a segment byte that drives a segment: bit 0 is a, bit 6 is g (R20). -/
def segmentBit : Segment → Nat
  | .a => 0
  | .b => 1
  | .c => 2
  | .d => 3
  | .e => 4
  | .f => 5
  | .g => 6

/-- Is the segment lit in a segment byte (R20: 1 is lit)? -/
def segmentLit (b : Byte) (x : Segment) : Bool := b.getLsbD (segmentBit x)

/-- Is the decimal point lit in a combined byte (R20: bit 7)? -/
def pointLit (b : Byte) : Bool := b.getLsbD 7

/-- The segments a byte lights, in the order of the letters. -/
def litSegments (b : Byte) : List Segment := [Segment.a, .b, .c, .d, .e, .f, .g].filter (segmentLit b)

/-! ### The bit remapper -/

/-- `swapPos(pos) = 7 - pos`, a function of `0..7` alone (R90, R94). -/
def swapPos (pos : Position) : Fin 8 := ⟨7 - pos.val, by omega⟩

/-- `swapLed(led) = 7 - led`, a function of `0..7` alone (R90, R94). -/
def swapLed (led : LedIndex) : Fin 8 := ⟨7 - led.val, by omega⟩

/-- `swapBits`, by the loop of R93: bit `i` of the byte becomes bit `7 - i` of the result. -/
def swapBits (a : Byte) : Byte :=
  [0, 1, 2, 3, 4, 5, 6, 7].foldl (fun r i => r ||| (bitOf a i <<< (7 - i))) 0#8

/-- `DigitAddr(pos) = 2 * swapPos(pos)` (R42). -/
def digitAddr (pos : Position) : RegAddr := ⟨2 * (swapPos pos).val, by omega⟩

/-- `LedAddr(led) = 2 * swapLed(led) + 1` (R43). -/
def ledAddr (led : LedIndex) : RegAddr := ⟨2 * (swapLed led).val + 1, by omega⟩

/-- The positions (or LED indices) `0..7` in the ascending order of R105, R106 and R151. -/
def ascending : List (Fin 8) := [0, 1, 2, 3, 4, 5, 6, 7]

/-! ### The segment encoder -/

/-- `Enc(d)`: the table for a digit value up to 15, blank above (R80). -/
def glyph (P : Params) (d : Nat) : Byte := if h : d < 16 then P.segTab[d] else P.segOff

/-! ### Colors -/

/-- The legal color operands: 0, 1, 2 (R155). -/
def legalColor (b : Byte) : Bool := decide (b.toNat ≤ 2)

/-- The byte of a color code: the code in bits 1:0, zeros above (R155). -/
def colorByte (c : BitVec 2) : Byte := c.setWidth 8

/-! ### The key-scan word -/

/-- Bit `i` of the key-scan word, as a byte. -/
def keyBit (raw : KeyWord) (i : Nat) : Byte := ((raw >>> i) &&& 1#32).setWidth 8

/-- The packed byte of R154 before the reversal: bit 0 of group `k` to bit `k`, bit 4 of group `k` to bit `k + 4`. -/
def packKeys (raw : KeyWord) : Byte :=
  [0, 1, 2, 3].foldl
    (fun pre k => (pre ||| (keyBit raw (8 * k) <<< k)) ||| (keyBit raw (8 * k + 4) <<< (k + 4))) 0#8

/-- `DecodeKeys(raw)` (R154). -/
def decodeKeys (raw : KeyWord) : Byte := swapBits (packKeys raw)

/-! ### Numbers -/

/-- The print value cut to its width class, as a natural number (R62). -/
def cutValue (W : WidthClass) (val : BitVec 32) : Nat := val.toNat % 2 ^ W.bits

/-- `x[W-1]`: the sign bit of a `W`-bit pattern (R125). -/
def isNegative (W : WidthClass) (x : Nat) : Bool := x.testBit (W.bits - 1)

/-- `Magnitude(W, x)`: the exact absolute value of a `W`-bit pattern, the most negative one included (R126). -/
def magnitude (W : WidthClass) (x : Nat) : Nat := if isNegative W x then 2 ^ W.bits - x else x

/-- `signed_W(x)` (R11). -/
def signedValue (W : WidthClass) (x : Nat) : Int := if isNegative W x then (x : Int) - 2 ^ W.bits else x

/-- The loop of R120: how many more digits `v` has, counting at most `left` of them. -/
def countDigits (r : Nat) : (left v : Nat) → Nat
  | 0, _ => 0
  | left + 1, v => if v = 0 then 0 else 1 + countDigits r left (v / r)

/-- `NumDigits(v, r)` for `r ≥ 2`: at least 1, saturating at `NDCAP`, here `cap` (R120). -/
def numDigits (cap v r : Nat) : Nat := 1 + countDigits r (cap - 1) (v / r)

end Sys2Proof.Machine
end

