-- ==== Sys2Proof/Config.lean ====
section
/-! DEFINITION. What identifies the hardware, and the free values: values the spec leaves to the collaborator (R46, R191).
The named parameters of R8 stand in Sys2Proof/Machine/Params.lean. -/

namespace Sys2Proof

/-- The name by which the spec refers to the block (R2, decision D30). -/
def Config.identity : String := "LKM1638-CORE"

/-- The command set version (R2, decision D30); there are no optional extensions. -/
def Config.commandSetVersion : Nat := 1

/-- FREE VALUE (notes/assumptions/1.md): the word the collaborator answers to the `n`-th `RDK`.
R46: "under no law other than being 32 bits wide". -/
opaque Config.keyScan : Nat → KeyWord

/-- FREE VALUE (notes/assumptions/2.md): what chip register `a` holds after the `n`-th reset until the core writes it.
R191: "A model treats every `REG[a]` after reset as an arbitrary byte." -/
opaque Config.chipPowerUp : Nat → Nat → Byte

end Sys2Proof
end

