-- ==== Sys2Proof/Machine/State.lean ====
section
/-! DEFINITION. The state of the core, of its two ports and of the reference collaborator, as plain data, and its reset value. -/

namespace Sys2Proof.Machine

/-- One transaction of the chip port (R13, R15). The types hold the laws of R44 and R46: an address is in `0..15`, a `WR`
moves one byte, an `RDK` answers 32 bits. -/
inductive Transaction where
  /-- `WR(a, v)`: `writeRegister(a, v)` (R44). -/
  | wr (a : RegAddr) (v : Byte)
  /-- `CLR`: `clearAll()` (R45). -/
  | clr
  /-- `RDK->raw`: `readKeyScanRegisters()` and the value it answered (R46). -/
  | rdk (raw : KeyWord)
deriving DecidableEq, Repr

/-- What the host does next at the core's inputs: it presents a command word (R60, R69), or resets the core between two
commands (R190), or while a command is in progress (R191). -/
inductive HostMove where
  /-- Present one command word. -/
  | command (cmd : CommandWord)
  /-- The reset event between two commands. -/
  | reset
  /-- The reset event inside the command `cmd`, when `done` of its transactions have completed. -/
  | resetDuring (cmd : CommandWord) (done : Nat)
deriving DecidableEq, Repr

/-- Why the machine could stop: never. R170: "The core raises no synchronous exception", and "it has no fault outcome".
The type has no constructor, so nothing raises one, and that is safe. -/
inductive Fault where
deriving DecidableEq, Repr

/-- Why the model could have no meaning for a command. -/
inductive Refusal where
  /-- Raised only by an arm of `exec` whose command has no meaning yet; no arm does (safe: it stops the run). -/
  | notModelled (mnemonic : String)
deriving DecidableEq, Repr

/-- The state. `seg`, `dots`, `cur` are the whole state of the core (R18, R24); the other fields are the model's own account
of the two ports and of the collaborator behind the chip port. -/
structure State where
  /-- `SEG[0..7]`, the segment registers (R21). -/
  seg : Vector Byte 8
  /-- `DOTS`, the dot mask (R22). -/
  dots : Byte
  /-- `CUR`, the print cursor, stored as 8 bits (R23). -/
  cur : Byte
  /-- The chip image `REG[0..15]` of the reference collaborator (R48), as far as the core has written it since the last reset. -/
  chip : List Host.Cell
  /-- The transactions of the latest command, oldest first (R15; notes/assumptions/11.md). -/
  trace : List Transaction
  /-- The response of the latest command, if it gave one (R14; notes/assumptions/11.md). -/
  response : Option Byte
  /-- The host's moves still to come at the command port, next first (R28, R69; notes/assumptions/9.md). -/
  pending : List HostMove
  /-- How many `RDK` the collaborator has answered: the index of the next free key-scan word (R46; notes/assumptions/12.md). -/
  scans : Nat
  /-- How many reset events there have been: the index of the free chip contents they leave (R191;
  notes/assumptions/12.md). -/
  resets : Nat
  /-- The parameters of the build (R8), which no step changes (R30: "constants of the build, not registers";
  notes/assumptions/32.md). -/
  params : Params
deriving DecidableEq, Repr

/-- The machine right after reset (R31, R190): all registers zero, nothing known of the chip, no transaction, no response. -/
def State.reset : State where
  seg := Vector.replicate 8 0
  dots := 0
  cur := 0
  chip := []
  trace := []
  response := none
  pending := []
  scans := 0
  resets := 0
  params := defaultParams

end Sys2Proof.Machine
end

