-- ==== Sys2Proof/Machine/Flags.lean ====
section
/-! DEFINITION. The core has no flags (R29): what stands here are the conditions it computes and does not record, the overflow
check (R121) and the three degraded outcomes (R171 to R173). -/

namespace Sys2Proof.Machine

/-- `Overflow(n, m)`: the value needs more positions than the budget or than the display has left of the cursor (R121). -/
def overflows (cur n m : Nat) : Bool := decide (n > m) || decide (cur + n > 8)

/-- The three degraded outcomes, named "for reference only" (R171); none is reported to the host. -/
inductive Degraded where
  | noop
  | overflow
  | blank
deriving DecidableEq, Repr

/-- The outcomes of a print whose value `v` needs `n` positions (R172, R173): the radix guard first, then the overflow check,
then the single positions and digits. -/
def printDegraded (cap cur n v r m : Nat) : List Degraded :=
  let dropped := if cur + m > 8 then [Degraded.noop] else []
  if r < 2 then [.noop]
  else if overflows cur n m then .overflow :: dropped
  else (if (List.range (numDigits cap v r)).any (fun i => decide (v / r ^ i % r ≥ 16)) then [.blank] else []) ++ dropped

/-- The outcomes of an unsigned print of width class `W`. -/
def unsignedDegraded (W : WidthClass) (val : BitVec 32) (rdx mxd : Byte) (s : State) : List Degraded :=
  let v := cutValue W val
  printDegraded s.params.ndCap s.cur.toNat (numDigits s.params.ndCap v rdx.toNat) v rdx.toNat mxd.toNat

/-- The outcomes of a signed print of width class `W`, which needs one more position for the sign (R125). -/
def signedDegraded (W : WidthClass) (val : BitVec 32) (rdx mxd : Byte) (s : State) : List Degraded :=
  let v := magnitude W (cutValue W val)
  printDegraded s.params.ndCap s.cur.toNat (numDigits s.params.ndCap v rdx.toNat + 1) v rdx.toNat mxd.toNat

/-- The degraded outcomes of a command in a state, by the table of R172 and the order of R173. -/
def degraded (i : Instr) (s : State) : List Degraded :=
  match i with
  | .enc a => if a.toNat ≥ 16 then [.blank] else []
  | .swpp a => if a.toNat ≥ 8 then [.noop] else []
  | .swpl a => if a.toNat ≥ 8 then [.noop] else []
  | .swpb _ => []
  | .setseg a _ => if a.toNat ≥ 8 then [.noop] else []
  | .setdig a b => if a.toNat ≥ 8 then [.noop] else if b.toNat ≥ 16 then [.blank] else []
  | .doton a => if a.toNat ≥ 8 then [.noop] else []
  | .dotoff a => if a.toNat ≥ 8 then [.noop] else []
  | .setdots _ => []
  | .refresh => []
  | .clear => []
  | .setcur a => if a.toNat ≥ 8 then [.noop] else []
  | .printu8 v r m _ => unsignedDegraded .w8 v r m s
  | .printu16 v r m _ => unsignedDegraded .w16 v r m s
  | .printu32 v r m _ => unsignedDegraded .w32 v r m s
  | .prints8 v r m => signedDegraded .w8 v r m s
  | .prints16 v r m => signedDegraded .w16 v r m s
  | .prints32 v r m => signedDegraded .w32 v r m s
  | .setled a b => if a.toNat ≥ 8 ∨ b.toNat ≥ 3 then [.noop] else []
  | .ledson _ b => if b.toNat ≥ 3 then [.noop] else []
  | .ledsoff _ => []
  | .getbtn => []

end Sys2Proof.Machine
end

