-- ==== Sys2Proof/Machine/Ops.lean ====
section
/-! DEFINITION. The shared operations: the chip image, the chip port, the response channel, rendering, the loops of the
formatter, and the reset event. There is no operation that takes an exception and none that returns from one, because the
core has no exceptions, traps or modes (R170, R176, R177, R180). -/

namespace Sys2Proof.Machine

/-! ### The chip image (R48): byte cells with strictly rising addresses below 16 -/

/-- What a register the core has not written since the last reset reads as: no known byte (R191; notes/assumptions/2.md). -/
def Memory.unlisted (_a : Nat) : Option Byte := none

/-- The byte known to be in register `a`. -/
def Memory.read : List Host.Cell → Nat → Option Byte
  | [], a => Memory.unlisted a
  | (k, v) :: rest, a => if a = k then some v else Memory.read rest a

/-- `REG[a] <- v`, keeping the addresses strictly rising (R48). -/
def Memory.write : List Host.Cell → Nat → Byte → List Host.Cell
  | [], a, v => [(a, v)]
  | (k, u) :: rest, a, v =>
    if a < k then (a, v) :: (k, u) :: rest
    else if a = k then (a, v) :: rest
    else (k, u) :: Memory.write rest a v

/-- The image after `clearAll`: all sixteen registers hold `0x00` (R48, decision D19). -/
def Memory.cleared : List Host.Cell := (List.range 16).map (fun a => (a, 0x00#8))

/-- The addresses are at least `lo`, strictly rising, and below 16. -/
def Memory.risingFrom : Nat → List Host.Cell → Bool
  | _, [] => true
  | lo, (k, _) :: rest => decide (lo ≤ k) && decide (k < 16) && Memory.risingFrom (k + 1) rest

/-- The canonical form of the chip image. No entry can equal what an unlisted address reads as, since that is no byte. -/
def Memory.wf (m : List Host.Cell) : Bool := Memory.risingFrom 0 m

/-- The effect of one transaction on the chip image (R48). -/
def Memory.apply (m : List Host.Cell) : Transaction → List Host.Cell
  | .wr a v => Memory.write m a.val v
  | .clr => Memory.cleared
  | .rdk _ => m

/-- `REG[a]`: the byte last written, else the arbitrary byte the last reset left there (R48, R191). -/
def regValue (s : State) (a : RegAddr) : Byte :=
  (Memory.read s.chip a.val).getD (Config.chipPowerUp s.resets a.val)

/-! ### The chip port and the response channel -/

/-- Emit one transaction, which completes before anything else happens (R47, R54). -/
def emit (x : Transaction) (s : State) : State :=
  { s with chip := Memory.apply s.chip x, trace := s.trace ++ [x] }

/-- `MemWrite(a, 1, v)` (R13, R44). -/
def memWrite (a : RegAddr) (v : Byte) (s : State) : State := emit (.wr a v) s

/-- `ChipClear()` (R13, R45). -/
def chipClear (s : State) : State := emit .clr s

/-- `KeyScanRead()` answered with `raw` (R13, R46). -/
def keyScanRead (raw : KeyWord) (s : State) : State := { emit (.rdk raw) s with scans := s.scans + 1 }

/-- `respond(v)` (R14). -/
def respond (v : Byte) (s : State) : State := { s with response := some v }

/-- The ports at the start of a command: no transaction emitted yet, no response given yet (R14, R15). -/
def beginCommand (s : State) : State := { s with trace := [], response := none }

/-- Run the body of a command to its end, as one atomic step that cannot fail (R170, R177, R196; notes/assumptions/13.md). -/
def command (body : State → State) (s : State) : Host.Outcome State Fault Refusal := .next (body (beginCommand s))

/-! ### Rendering (R100) and the store every writing command uses (R101, R102) -/

/-- The combined byte of a position: `SEG[p] | (DOTS[p] << 7)` (R100). -/
def combined (s : State) (p : Position) : Byte := s.seg[p.val] ||| (bitOf s.dots p.val <<< 7)

/-- `Render(p)` (R100). -/
def render (p : Position) (s : State) : State := memWrite (digitAddr p) (combined s p) s

/-- The eight renders of R105 and R106, ascending. -/
def renderAll (s : State) : State := ascending.foldl (fun s p => render p s) s

/-- `SetSeg(pos, g)` for any natural number `pos` (R101). -/
def setSeg (pos : Nat) (g : Byte) (s : State) : State :=
  if h : pos < 8 then render ⟨pos, h⟩ { s with seg := s.seg.set pos (g &&& 0x7F#8) } else s

/-- `SetDig(pos, d)` (R102). -/
def setDig (pos d : Nat) (s : State) : State := setSeg pos (glyph s.params d) s

/-! ### The formatter (R119 to R126) -/

/-- The loop of R122 from index `i`, with `left` iterations to go. -/
def overflowRunFrom : (left i : Nat) → State → State
  | 0, _, s => s
  | left + 1, i, s => overflowRunFrom left (i + 1) (setSeg (s.cur.toNat + i) s.params.segMinus s)

/-- `OverflowRun(m)` (R122). -/
def overflowRun (m : Nat) (s : State) : State := overflowRunFrom m 0 s

/-- The loop of R123 from index `i`, where the value has already been divided down to `v`. -/
def digitLoopFrom (r pad : Nat) : (left i v : Nat) → State → State
  | 0, _, _, s => s
  | left + 1, i, v, s =>
    digitLoopFrom r pad left (i + 1) (v / r)
      (if v = 0 ∧ i ≥ pad then setSeg (s.cur.toNat + i) s.params.segOff s else setDig (s.cur.toNat + i) (v % r) s)

/-- `DigitLoop(v, r, m, pad)` (R123). -/
def digitLoop (v r m pad : Nat) (s : State) : State := digitLoopFrom r pad m 0 v s

/-- `PrintUnsigned(v, r, m, pad)` (R124), behind the radix guard of R133. -/
def printUnsigned (v r m pad : Nat) (s : State) : State :=
  if r < 2 then s
  else if overflows s.cur.toNat (numDigits s.params.ndCap v r) m then overflowRun m s
  else digitLoop v r m pad s

/-- The sign write of R125, at the position left of the most significant digit. -/
def writeSign (negative : Bool) (k : Nat) (s : State) : State :=
  setSeg (s.cur.toNat + k) (if negative then s.params.segMinus else s.params.segOff) s

/-- `PrintSigned(W, x, r, m)` (R125), behind the radix guard of R133. -/
def printSigned (W : WidthClass) (x r m : Nat) (s : State) : State :=
  if r < 2 then s
  else
    let k := numDigits s.params.ndCap (magnitude W x) r
    if overflows s.cur.toNat (k + 1) m then overflowRun m s
    else writeSign (isNegative W x) k (digitLoop (magnitude W x) r m 1 s)

/-! ### LEDs and keys -/

/-- The loop of R151 and R152: one write of `v` for every set bit of the mask, ascending. -/
def writeLeds (mask v : Byte) (s : State) : State :=
  ascending.foldl (fun s i => if mask.getLsbD i.val then memWrite (ledAddr i) v s else s) s

/-- The body of `GETBTN` when the collaborator answers `raw` (R153). -/
def readButtons (raw : KeyWord) (s : State) : State := respond (decodeKeys raw) (keyScanRead raw s)

/-! ### The reset event (R190, R191; notes/assumptions/10.md) -/

/-- The reset event: the registers become zero, nothing is emitted and nothing answered, and every chip register holds an
arbitrary byte again. -/
def hardReset (s : State) : State :=
  { s with seg := Vector.replicate 8 0, dots := 0, cur := 0, chip := [], trace := [], response := none,
           resets := s.resets + 1 }

/-- The reset event inside a command that would have ended in `t`, after `done` of its transactions: "the transactions already
completed stay …, and the rest are never emitted" (R191); no response is sent (R190). -/
def abortedBy (done : Nat) (t : State) : State := { hardReset t with trace := t.trace.take done }

end Sys2Proof.Machine
end

