-- ==== Sys2Proof/Machine/Board.lean ====
section
/-! DEFINITION. The commands of the board driver: `SETLED`, `LEDSON`, `LEDSOFF` (R150 to R152) and `GETBTN` (R153). -/

namespace Sys2Proof.Machine

/-- `SETLED a, b` (R150): one write of the color, when both operands are in range. -/
def execSetled (a b : Byte) (s : State) : Host.Outcome State Fault Refusal :=
  command (fun s => if h : a.toNat < 8 then (if legalColor b then memWrite (ledAddr ⟨a.toNat, h⟩) b s else s) else s) s

/-- `LEDSON a, b` (R151): one write of the color for every set bit of the mask, when the color is legal. -/
def execLedson (a b : Byte) (s : State) : Host.Outcome State Fault Refusal :=
  command (fun s => if legalColor b then writeLeds a b s else s) s

/-- `LEDSOFF a` (R152): one write of `COLOR_OFF` for every set bit of the mask. -/
def execLedsoff (a : Byte) (s : State) : Host.Outcome State Fault Refusal :=
  command (fun s => writeLeds a (colorByte s.params.colorOff) s) s

/-- `GETBTN` (R153): one `RDK`, answered by the next free key-scan word, and its decoding as the response. -/
def execGetbtn (s : State) : Host.Outcome State Fault Refusal :=
  command (fun s => readButtons (Config.keyScan s.scans) s) s

end Sys2Proof.Machine
end

