-- ==== Sys2Proof/Machine/Display.lean ====
section
/-! DEFINITION. The display state commands: `SETSEG`, `SETDIG`, `DOTON`, `DOTOFF`, `SETDOTS`, `REFRESH`, `CLEAR`, `SETCUR`
(R101 to R108). -/

namespace Sys2Proof.Machine

/-- `SETSEG a, b` (R101): `SetSeg(a, b)`. -/
def execSetseg (a b : Byte) (s : State) : Host.Outcome State Fault Refusal :=
  command (setSeg a.toNat b) s

/-- `SETDIG a, b` (R102): `SetDig(a, b)`. -/
def execSetdig (a b : Byte) (s : State) : Host.Outcome State Fault Refusal :=
  command (setDig a.toNat b.toNat) s

/-- `DOTON a` (R103): set bit `a` of `DOTS`, then render the position. -/
def execDoton (a : Byte) (s : State) : Host.Outcome State Fault Refusal :=
  command (fun s =>
    if h : a.toNat < 8 then render ⟨a.toNat, h⟩ { s with dots := s.dots ||| (1#8 <<< a.toNat) } else s) s

/-- `DOTOFF a` (R104): clear bit `a` of `DOTS`, then render the position. -/
def execDotoff (a : Byte) (s : State) : Host.Outcome State Fault Refusal :=
  command (fun s =>
    if h : a.toNat < 8 then render ⟨a.toNat, h⟩ { s with dots := s.dots &&& ~~~(1#8 <<< a.toNat) } else s) s

/-- `SETDOTS a` (R105): replace the dot mask, then render all eight positions. -/
def execSetdots (a : Byte) (s : State) : Host.Outcome State Fault Refusal :=
  command (fun s => renderAll { s with dots := a }) s

/-- `REFRESH` (R106): render all eight positions. -/
def execRefresh (s : State) : Host.Outcome State Fault Refusal :=
  command renderAll s

/-- `CLEAR` (R107): zero `SEG` and `DOTS`, then `CLR`; `CUR` stays. -/
def execClear (s : State) : Host.Outcome State Fault Refusal :=
  command (fun s => chipClear { s with seg := Vector.replicate 8 0x00#8, dots := 0x00#8 }) s

/-- `SETCUR a` (R108): `CUR <- a` for `a ≤ 7`, else nothing. -/
def execSetcur (a : Byte) (s : State) : Host.Outcome State Fault Refusal :=
  command (fun s => if a.toNat ≤ 7 then { s with cur := a } else s) s

end Sys2Proof.Machine
end

