-- ==== Sys2Proof/Machine/Print.lean ====
section
/-! DEFINITION. The print commands of the number formatter: `PRINTU8`, `PRINTU16`, `PRINTU32` (R127 to R129) and `PRINTS8`,
`PRINTS16`, `PRINTS32` (R130 to R132). -/

namespace Sys2Proof.Machine

/-- `PRINTU8` (R127): `PrintUnsigned(val[7:0], rdx, mxd, pad)`. -/
def execPrintu8 (val : BitVec 32) (rdx mxd pad : Byte) (s : State) : Host.Outcome State Fault Refusal :=
  command (printUnsigned (cutValue .w8 val) rdx.toNat mxd.toNat pad.toNat) s

/-- `PRINTU16` (R128): `PrintUnsigned(val[15:0], rdx, mxd, pad)`. -/
def execPrintu16 (val : BitVec 32) (rdx mxd pad : Byte) (s : State) : Host.Outcome State Fault Refusal :=
  command (printUnsigned (cutValue .w16 val) rdx.toNat mxd.toNat pad.toNat) s

/-- `PRINTU32` (R129): `PrintUnsigned(val[31:0], rdx, mxd, pad)`. -/
def execPrintu32 (val : BitVec 32) (rdx mxd pad : Byte) (s : State) : Host.Outcome State Fault Refusal :=
  command (printUnsigned (cutValue .w32 val) rdx.toNat mxd.toNat pad.toNat) s

/-- `PRINTS8` (R130): `PrintSigned(8, val[7:0], rdx, mxd)`. -/
def execPrints8 (val : BitVec 32) (rdx mxd : Byte) (s : State) : Host.Outcome State Fault Refusal :=
  command (printSigned .w8 (cutValue .w8 val) rdx.toNat mxd.toNat) s

/-- `PRINTS16` (R131): `PrintSigned(16, val[15:0], rdx, mxd)`. -/
def execPrints16 (val : BitVec 32) (rdx mxd : Byte) (s : State) : Host.Outcome State Fault Refusal :=
  command (printSigned .w16 (cutValue .w16 val) rdx.toNat mxd.toNat) s

/-- `PRINTS32` (R132): `PrintSigned(32, val[31:0], rdx, mxd)`. -/
def execPrints32 (val : BitVec 32) (rdx mxd : Byte) (s : State) : Host.Outcome State Fault Refusal :=
  command (printSigned .w32 (cutValue .w32 val) rdx.toNat mxd.toNat) s

end Sys2Proof.Machine
end

