-- ==== Sys2Proof/Machine/Query.lean ====
section
/-! DEFINITION. The look-up commands of the segment encoder and the bit remapper: `ENC` (R83), `SWPP` (R91), `SWPL` (R92),
`SWPB` (R93). They answer a response and change nothing. -/

namespace Sys2Proof.Machine

/-- `ENC a` (R83): `respond(Enc(a))`. -/
def execEnc (a : Byte) (s : State) : Host.Outcome State Fault Refusal :=
  command (fun s => respond (glyph s.params a.toNat) s) s

/-- `SWPP a` (R91): `respond(7 - a)` for `a ≤ 7`, else no response. -/
def execSwpp (a : Byte) (s : State) : Host.Outcome State Fault Refusal :=
  command (fun s => if h : a.toNat < 8 then respond (BitVec.ofNat 8 (swapPos ⟨a.toNat, h⟩).val) s else s) s

/-- `SWPL a` (R92): `respond(7 - a)` for `a ≤ 7`, else no response. -/
def execSwpl (a : Byte) (s : State) : Host.Outcome State Fault Refusal :=
  command (fun s => if h : a.toNat < 8 then respond (BitVec.ofNat 8 (swapLed ⟨a.toNat, h⟩).val) s else s) s

/-- `SWPB a` (R93): respond the byte with its bits reversed. -/
def execSwpb (a : Byte) (s : State) : Host.Outcome State Fault Refusal :=
  command (respond (swapBits a)) s

end Sys2Proof.Machine
end

