-- ==== Sys2Proof/Machine/Dispatch.lean ====
section
/-! DEFINITION. One arm per command: the meaning of each constructor of `Instr`. -/

namespace Sys2Proof.Machine

def exec (i : Instr) (s : State) : Host.Outcome State Fault Refusal :=
  match i with
  | .enc a => Sys2Proof.Machine.execEnc a s
  | .swpp a => Sys2Proof.Machine.execSwpp a s
  | .swpl a => Sys2Proof.Machine.execSwpl a s
  | .swpb a => Sys2Proof.Machine.execSwpb a s
  | .setseg a b => Sys2Proof.Machine.execSetseg a b s
  | .setdig a b => Sys2Proof.Machine.execSetdig a b s
  | .doton a => Sys2Proof.Machine.execDoton a s
  | .dotoff a => Sys2Proof.Machine.execDotoff a s
  | .setdots a => Sys2Proof.Machine.execSetdots a s
  | .refresh => Sys2Proof.Machine.execRefresh s
  | .clear => Sys2Proof.Machine.execClear s
  | .setcur a => Sys2Proof.Machine.execSetcur a s
  | .printu8 val rdx mxd pad => Sys2Proof.Machine.execPrintu8 val rdx mxd pad s
  | .printu16 val rdx mxd pad => Sys2Proof.Machine.execPrintu16 val rdx mxd pad s
  | .printu32 val rdx mxd pad => Sys2Proof.Machine.execPrintu32 val rdx mxd pad s
  | .prints8 val rdx mxd => Sys2Proof.Machine.execPrints8 val rdx mxd s
  | .prints16 val rdx mxd => Sys2Proof.Machine.execPrints16 val rdx mxd s
  | .prints32 val rdx mxd => Sys2Proof.Machine.execPrints32 val rdx mxd s
  | .setled a b => Sys2Proof.Machine.execSetled a b s
  | .ledson a b => Sys2Proof.Machine.execLedson a b s
  | .ledsoff a => Sys2Proof.Machine.execLedsoff a s
  | .getbtn => Sys2Proof.Machine.execGetbtn s

end Sys2Proof.Machine
end

