-- ==== Sys2Proof/Machine/Port.lean ====
section
/-! DEFINITION. What one move of the host at the core's inputs does: a command word is decoded and performed (R64, R65), a
reset event resets the core (R190, R191). -/

namespace Sys2Proof.Machine

/-- A reserved opcode is a silent no-op: no state change, no transaction, no response (R65 (1), decision D4;
notes/assumptions/16.md). -/
def reservedNoop (s : State) : Host.Outcome State Fault Refusal := command (fun s => s) s

/-- Perform one command word. -/
def performWord (cmd : CommandWord) (s : State) : Host.Outcome State Fault Refusal :=
  match decode cmd with
  | .ok i => exec i s
  | .error (.reservedOpcode _) => reservedNoop s

/-- Continue from a next state; a fault or a refusal stands. -/
def afterNext (f : State → State) : Host.Outcome State Fault Refusal → Host.Outcome State Fault Refusal
  | .next t => .next (f t)
  | .fault r => .fault r
  | .refused r => .refused r

/-- The effect of one host move. -/
def performMove (m : HostMove) (s : State) : Host.Outcome State Fault Refusal :=
  match m with
  | .command cmd => performWord cmd s
  | .reset => .next (hardReset s)
  | .resetDuring cmd done => afterNext (abortedBy done) (performWord cmd s)

/-- Present a command word as the host's next move. -/
def presentWord (cmd : CommandWord) (s : State) : State := { s with pending := .command cmd :: s.pending }

end Sys2Proof.Machine
end

