-- ==== Sys2Proof/Machine/Assembler.lean ====
section
/-! DEFINITION. The text form of a command (R67) and its symbolic constants (R68): an assembler from one line of text to a
command. It is the spec's own (decision D3); what R67 leaves open of it stands in notes/assumptions/20.md. The machine does
not use it. The named patterns and colors are those of the parameters `P`. -/

namespace Sys2Proof.Machine

/-- Why a line has no command. -/
inductive AsmError where
  /-- The first word is none of the 22 mnemonics of R63. -/
  | unknownMnemonic
  /-- The number of operands is not the format's (R67). -/
  | operandCount
  /-- An operand is neither a number of R67 nor a symbolic constant of R68 allowed there. -/
  | notANumber
  /-- A number does not fit its field (R9, R62). -/
  | outOfRange
deriving DecidableEq, Repr

/-! ### Words of a line -/

/-- A space or a tab. -/
def isBlank (c : Char) : Bool := c = ' ' || c = '\t'

/-- The line up to a comment: `;` starts one (R67). -/
def dropComment (line : List Char) : List Char := line.takeWhile (fun c => c ≠ ';')

/-- Without blanks at the front and at the end. -/
def trimBlanks (t : List Char) : List Char := ((t.dropWhile isBlank).reverse.dropWhile isBlank).reverse

/-- The pieces between separators. -/
def splitAtChar (sep : Char) : List Char → List (List Char)
  | [] => [[]]
  | c :: rest =>
    if c = sep then [] :: splitAtChar sep rest
    else
      match splitAtChar sep rest with
      | [] => [[c]]
      | w :: ws => (c :: w) :: ws

/-- The operands of a command, separated by commas (R67). -/
def operandsOf (t : List Char) : List (List Char) :=
  match trimBlanks t with
  | [] => []
  | u => (splitAtChar ',' u).map trimBlanks

/-! ### Numbers -/

/-- The value of one digit, in the bases up to 16. -/
def digitOf (c : Char) : Option Nat :=
  if '0' ≤ c ∧ c ≤ '9' then some (c.toNat - '0'.toNat)
  else if 'a' ≤ c ∧ c ≤ 'f' then some (c.toNat - 'a'.toNat + 10)
  else if 'A' ≤ c ∧ c ≤ 'F' then some (c.toNat - 'A'.toNat + 10)
  else none

/-- Digits read in a base, after the digits already read have given `acc`. -/
def digitsFrom (base : Nat) : (acc : Nat) → List Char → Except AsmError Nat
  | acc, [] => .ok acc
  | acc, c :: rest =>
    match digitOf c with
    | some d => if d < base then digitsFrom base (base * acc + d) rest else .error .notANumber
    | none => .error .notANumber

/-- One or more digits in a base. -/
def digitsIn (base : Nat) (t : List Char) : Except AsmError Nat :=
  match t with
  | [] => .error .notANumber
  | c :: rest => digitsFrom base 0 (c :: rest)

/-- "Numbers are decimal, `0x` hexadecimal or `0b` binary" (R67). -/
def asmNumber (t : List Char) : Except AsmError Nat :=
  match t with
  | '0' :: 'x' :: rest => digitsIn 16 rest
  | '0' :: 'b' :: rest => digitsIn 2 rest
  | _ => digitsIn 10 t

/-- An 8-bit operand (R9). -/
def asmByte (t : List Char) : Except AsmError Byte :=
  (asmNumber t).bind (fun n => if n < 256 then .ok (BitVec.ofNat 8 n) else .error .outOfRange)

/-- The segment operand of `SETSEG`: a named pattern or a number (R68). -/
def asmSegments (P : Params) (t : List Char) : Except AsmError Byte :=
  if t = "OFF".toList then .ok P.segOff
  else if t = "MINUS".toList then .ok P.segMinus
  else if t = "DEGREE".toList then .ok P.segDegree
  else if t = "CELSIUS".toList then .ok P.segCelsius
  else asmByte t

/-- The color operand of `SETLED` and `LEDSON`: a named color or a number (R68). -/
def asmColor (P : Params) (t : List Char) : Except AsmError Byte :=
  if t = "off".toList then .ok (colorByte P.colorOff)
  else if t = "red".toList then .ok (colorByte P.colorRed)
  else if t = "green".toList then .ok (colorByte P.colorGreen)
  else asmByte t

/-- A number of `W` bits, with zeros above (R67). -/
def asmUnsigned (W : WidthClass) (t : List Char) : Except AsmError (BitVec 32) :=
  (asmNumber t).bind (fun n => if n < 2 ^ W.bits then .ok (BitVec.ofNat 32 n) else .error .outOfRange)

/-- The value of a signed print: as above, or with a leading `-` the `W`-bit two's-complement pattern (R67). -/
def asmSigned (W : WidthClass) (t : List Char) : Except AsmError (BitVec 32) :=
  match t with
  | '-' :: rest =>
    (asmNumber rest).bind (fun n =>
      if n ≤ 2 ^ (W.bits - 1) then .ok (BitVec.ofNat 32 ((2 ^ W.bits - n) % 2 ^ W.bits)) else .error .outOfRange)
  | _ => asmUnsigned W t

/-! ### Commands, by format (R61, R67) -/

/-- Format `Z`: no operand. -/
def asmZ (i : Instr) (ops : List (List Char)) : Except AsmError Instr :=
  match ops with
  | [] => .ok i
  | _ => .error .operandCount

/-- Format `A`: `a`. -/
def asmA (f : Byte → Instr) (ops : List (List Char)) : Except AsmError Instr :=
  match ops with
  | [a] => (asmByte a).map f
  | _ => .error .operandCount

/-- Format `AB`: `a, b`, where `second` reads the `b` operand. -/
def asmAB (second : List Char → Except AsmError Byte) (f : Byte → Byte → Instr) (ops : List (List Char)) :
    Except AsmError Instr :=
  match ops with
  | [a, b] => (asmByte a).bind (fun x => (second b).map (f x))
  | _ => .error .operandCount

/-- Format `PU`: `value, radix, maxDigits, pad`. -/
def asmPU (W : WidthClass) (ops : List (List Char)) : Except AsmError Instr :=
  match ops with
  | [v, r, m, p] =>
    (asmUnsigned W v).bind (fun val => (asmByte r).bind (fun rdx => (asmByte m).bind (fun mxd =>
      (asmByte p).map (fun pad => Instr.printUnsigned W val rdx mxd pad))))
  | _ => .error .operandCount

/-- Format `PS`: `value, radix, maxDigits`. -/
def asmPS (W : WidthClass) (ops : List (List Char)) : Except AsmError Instr :=
  match ops with
  | [v, r, m] =>
    (asmSigned W v).bind (fun val => (asmByte r).bind (fun rdx =>
      (asmByte m).map (fun mxd => Instr.printSigned W val rdx mxd)))
  | _ => .error .operandCount

/-- The mnemonics of R63 and what reads their operands, in the table's order. -/
def asmTable (P : Params) : List (String × (List (List Char) → Except AsmError Instr)) :=
  [("ENC", asmA .enc), ("SWPP", asmA .swpp), ("SWPL", asmA .swpl), ("SWPB", asmA .swpb)] ++
  [("SETSEG", asmAB (asmSegments P) .setseg), ("SETDIG", asmAB asmByte .setdig), ("DOTON", asmA .doton),
   ("DOTOFF", asmA .dotoff), ("SETDOTS", asmA .setdots), ("REFRESH", asmZ .refresh), ("CLEAR", asmZ .clear),
   ("SETCUR", asmA .setcur)] ++
  [("PRINTU8", asmPU .w8), ("PRINTU16", asmPU .w16), ("PRINTU32", asmPU .w32), ("PRINTS8", asmPS .w8),
   ("PRINTS16", asmPS .w16), ("PRINTS32", asmPS .w32)] ++
  [("SETLED", asmAB (asmColor P) .setled), ("LEDSON", asmAB (asmColor P) .ledson), ("LEDSOFF", asmA .ledsoff),
   ("GETBTN", asmZ .getbtn)]

/-- A mnemonic and its operands (R63, R67). -/
def asmCommand (P : Params) (mn : List Char) (ops : List (List Char)) : Except AsmError Instr :=
  match (asmTable P).find? (fun row => row.1.toList = mn) with
  | some row => row.2 ops
  | none => .error .unknownMnemonic

/-- One line: a command, or none where the line holds only blanks and a comment (R67: "One command per line"). -/
def asmLine (P : Params) (line : List Char) : Except AsmError (Option Instr) :=
  match trimBlanks (dropComment line) with
  | [] => .ok none
  | t => (asmCommand P (t.takeWhile (fun c => !isBlank c)) (operandsOf (t.dropWhile (fun c => !isBlank c)))).map some

/-- The commands of a list of lines, in order; the first line that has an error ends the assembly. -/
def asmLines (P : Params) : List (List Char) → Except AsmError (List Instr)
  | [] => .ok []
  | line :: rest => (asmLine P line).bind (fun c => (asmLines P rest).map (fun is => c.toList ++ is))

/-- A program text: the commands of its lines (R67, R69). -/
def assemble (P : Params) (text : String) : Except AsmError (List Instr) := asmLines P (splitAtChar '\n' text.toList)

end Sys2Proof.Machine
end

