-- ==== Sys2Proof/Safety.lean ====
section
/-! DEFINITION. What counts as a safe state, and the words the statements use: the invariants of R21, R23, R27 and R155, the
frames of a command, the glyph a print shows at a position (R134) and the transaction counts of R205. -/

namespace Sys2Proof.Machine

/-! ### Invariants -/

/-- `SEG[i][7] = 0` for every `i` (R21). -/
def SegmentsClean (s : State) : Prop := ∀ p : Position, (s.seg[p.val]).getLsbD 7 = false

/-- `CUR <= 7` (R23). -/
def CursorInRange (s : State) : Prop := s.cur.toNat ≤ 7

/-- The coherence relation of R27 at one position: the chip register is known to hold the combined byte. -/
def Coherent (s : State) (p : Position) : Prop := Memory.read s.chip (digitAddr p).val = some (combined s p)

/-- Whatever is known of a digit register is what the mirror says (R27). -/
def MirrorHolds (s : State) : Prop :=
  ∀ (p : Position) (v : Byte), Memory.read s.chip (digitAddr p).val = some v → v = combined s p

/-- Whatever is known of an LED register is a legal color byte; `0b11` never reaches the chip (R155). -/
def LedsLegal (s : State) : Prop :=
  ∀ (l : LedIndex) (v : Byte), Memory.read s.chip (ledAddr l).val = some v → legalColor v = true

/-- A safe state: the invariants of the registers, of the mirror, of the LED registers, the canonical form of the image,
and admissible parameters (R8). -/
structure Safe (s : State) : Prop where
  segments : SegmentsClean s
  cursor : CursorInRange s
  mirror : MirrorHolds s
  leds : LedsLegal s
  canonical : Memory.wf s.chip = true
  params : s.params.Admissible

/-! ### Frames -/

/-- The registers of the core are as before. -/
structure SameRegisters (s t : State) : Prop where
  seg : t.seg = s.seg
  dots : t.dots = s.dots
  cur : t.cur = s.cur

/-- What only the host or the collaborator changes, and the parameters of the build, are as before. -/
structure SameEnvironment (s t : State) : Prop where
  pending : t.pending = s.pending
  scans : t.scans = s.scans
  resets : t.resets = s.resets
  params : t.params = s.params

/-- Every chip register reads as before. -/
def SameChip (s t : State) : Prop := ∀ a : Nat, Memory.read t.chip a = Memory.read s.chip a

/-- Every chip register outside the set reads as before. -/
def SameChipExcept (stored : Nat → Prop) (s t : State) : Prop :=
  ∀ a : Nat, ¬ stored a → Memory.read t.chip a = Memory.read s.chip a

/-- The silent no-op of R171: no state change, no transaction, no response. -/
structure SilentNoop (s t : State) : Prop where
  registers : SameRegisters s t
  environment : SameEnvironment s t
  chip : SameChip s t
  trace : t.trace = []
  response : t.response = none

/-- A look-up (R83, R91 to R93): no register, no chip register, no transaction; only the response speaks. -/
structure QueryOnly (s t : State) : Prop where
  registers : SameRegisters s t
  environment : SameEnvironment s t
  chip : SameChip s t
  trace : t.trace = []

/-- What a command that renders one position does at the ports (R100): one `WR` of the position's new combined byte to its
digit register, no response, and every other chip register as before. -/
structure RendersOne (s t : State) (p : Position) : Prop where
  trace : t.trace = [.wr (digitAddr p) (combined t p)]
  coherent : Coherent t p
  chip : SameChipExcept (fun a => a = (digitAddr p).val) s t
  response : t.response = none
  environment : SameEnvironment s t

/-- What a command that renders all positions does at the ports (R105, R106): eight `WR`, ascending, to the digit registers. -/
structure RendersEight (s t : State) : Prop where
  trace : t.trace = ascending.map (fun p => .wr (digitAddr p) (combined t p))
  coherent : ∀ p, Coherent t p
  chip : SameChipExcept (fun a => ∃ p : Position, a = (digitAddr p).val) s t
  response : t.response = none
  environment : SameEnvironment s t

/-- What an LED command does when it writes the byte `v` to the LED registers `lit` selects, in the ascending order (R150 to
R152). -/
structure WritesLeds (s t : State) (lit : LedIndex → Bool) (v : Byte) : Prop where
  trace : t.trace = (ascending.filter lit).map (fun l => .wr (ledAddr l) v)
  stored : ∀ l, lit l = true → Memory.read t.chip (ledAddr l).val = some v
  chip : SameChipExcept (fun a => ∃ l, lit l = true ∧ a = (ledAddr l).val) s t
  registers : SameRegisters s t
  response : t.response = none
  environment : SameEnvironment s t

/-! ### Programs -/

/-- The commands of a straight-line program one after another (R69), with no port between. -/
def performAll : List Instr → State → Host.Outcome State Fault Refusal
  | [], s => .next s
  | i :: rest, s =>
    match exec i s with
    | .next t => performAll rest t
    | .fault r => .fault r
    | .refused r => .refused r

/-- The moves of the host one after another, with no port between (R69, R190, R191). -/
def performAllMoves : List HostMove → State → Host.Outcome State Fault Refusal
  | [], s => .next s
  | m :: rest, s =>
    match performMove m s with
    | .next t => performAllMoves rest t
    | .fault r => .fault r
    | .refused r => .refused r

/-! ### Prints -/

/-- The position lies in the budget of a print with `m` positions from the cursor. -/
def inBudget (cur m : Nat) (p : Position) : Bool := decide (cur ≤ p.val) && decide (p.val < cur + m)

/-- The positions of the budget that are on the display, ascending. -/
def budgetPositions (cur m : Nat) : List Position := ascending.filter (inBudget cur m)

/-- The glyph of the digit of weight `r ^ i` in a print of `v`: a leading zero from index `pad` on is blank (R123, R134). -/
def positionGlyph (P : Params) (v r pad i : Nat) : Byte :=
  if v / r ^ i = 0 ∧ pad ≤ i then P.segOff else glyph P (v / r ^ i % r)

/-- A glyph with the dot of its position in bit 7 (R100). -/
def withDot (s : State) (p : Position) (g : Byte) : Byte := g ||| (bitOf s.dots p.val <<< 7)

/-- What a print with budget `m` leaves unchanged: `DOTS`, `CUR`, the segment registers and the chip registers outside the
budget; and it gives no response. -/
structure PrintFrame (s t : State) (m : Nat) : Prop where
  dots : t.dots = s.dots
  cur : t.cur = s.cur
  seg : ∀ p : Position, inBudget s.cur.toNat m p = false → t.seg[p.val] = s.seg[p.val]
  chip : SameChipExcept (fun a => ∃ p, inBudget s.cur.toNat m p = true ∧ a = (digitAddr p).val) s t
  response : t.response = none
  environment : SameEnvironment s t

/-! ### Transaction counts (R205) -/

/-- Is it a `WR`? -/
def Transaction.isWrite : Transaction → Bool
  | .wr _ _ => true
  | .clr => false
  | .rdk _ => false

/-- Numbers of `WR`, `CLR`, `RDK` in a trace. -/
def transactionCounts (tr : List Transaction) : Nat × Nat × Nat :=
  (tr.countP Transaction.isWrite, tr.count .clr,
    tr.countP (fun x => match x with | .wr _ _ => false | .clr => false | .rdk _ => true))

/-- The number of 1 bits of a mask. -/
def onesOf (mask : Byte) : Nat := ascending.countP (fun i => mask.getLsbD i.val)

/-- The `WR` count of an unsigned print (R205). -/
def unsignedWrites (rdx mxd : Byte) (s : State) : Nat :=
  if rdx.toNat ≥ 2 then min mxd.toNat (8 - s.cur.toNat) else 0

/-- The `WR` count of a signed print: one more when there is no overflow (R205). -/
def signedWrites (W : WidthClass) (val : BitVec 32) (rdx mxd : Byte) (s : State) : Nat :=
  unsignedWrites rdx mxd s +
    (if rdx.toNat ≥ 2 ∧
        overflows s.cur.toNat (numDigits s.params.ndCap (magnitude W (cutValue W val)) rdx.toNat + 1) mxd.toNat = false then 1 else 0)

/-- The table of R205: numbers of `WR`, `CLR`, `RDK` of a command. -/
def expectedCounts (i : Instr) (s : State) : Nat × Nat × Nat :=
  match i with
  | .enc _ => (0, 0, 0)
  | .swpp _ => (0, 0, 0)
  | .swpl _ => (0, 0, 0)
  | .swpb _ => (0, 0, 0)
  | .setseg a _ => (if a.toNat ≤ 7 then 1 else 0, 0, 0)
  | .setdig a _ => (if a.toNat ≤ 7 then 1 else 0, 0, 0)
  | .doton a => (if a.toNat ≤ 7 then 1 else 0, 0, 0)
  | .dotoff a => (if a.toNat ≤ 7 then 1 else 0, 0, 0)
  | .setdots _ => (8, 0, 0)
  | .refresh => (8, 0, 0)
  | .clear => (0, 1, 0)
  | .setcur _ => (0, 0, 0)
  | .printu8 _ r m _ => (unsignedWrites r m s, 0, 0)
  | .printu16 _ r m _ => (unsignedWrites r m s, 0, 0)
  | .printu32 _ r m _ => (unsignedWrites r m s, 0, 0)
  | .prints8 v r m => (signedWrites .w8 v r m s, 0, 0)
  | .prints16 v r m => (signedWrites .w16 v r m s, 0, 0)
  | .prints32 v r m => (signedWrites .w32 v r m s, 0, 0)
  | .setled a b => (if a.toNat ≤ 7 ∧ b.toNat ≤ 2 then 1 else 0, 0, 0)
  | .ledson a b => (if b.toNat ≤ 2 then onesOf a else 0, 0, 0)
  | .ledsoff a => (onesOf a, 0, 0)
  | .getbtn => (0, 0, 1)

/-! ### Degraded outcomes (R171 to R173): what each tells of the next state -/

/-- Is it a `WR` to the digit register of the position? -/
def Transaction.writesDigit (p : Position) : Transaction → Bool
  | .wr a _ => a = digitAddr p
  | .clr => false
  | .rdk _ => false

/-- The positions to which a trace writes, each once. -/
def positionsWritten (tr : List Transaction) : List Position := ascending.filter (fun p => tr.any (Transaction.writesDigit p))

/-- `NOOP` of a command that otherwise shows something at the ports: exactly the silent no-op. -/
structure NoopIsSilence (ds : List Degraded) (s t : State) : Prop where
  exact : .noop ∈ ds ↔ t.trace = [] ∧ t.response = none
  silent : .noop ∈ ds → SilentNoop s t

/-- The outcomes of a print from `s` to `t` of the value `v`, which has `k` digits and needs `n` positions, in the order of
R173 (2): the radix guard, then the overflow check, then the single positions and digits. -/
structure PrintOutcomes (ds : List Degraded) (s t : State) (v k n r m pad : Nat) : Prop where
  /-- The radix guard ends the command, whatever the overflow check would say. -/
  radix : r < 2 → ds = [.noop] ∧ SilentNoop s t
  /-- When the outcome is `OVERFLOW`. -/
  overflow : 2 ≤ r → (.overflow ∈ ds ↔ overflows s.cur.toNat n m = true)
  /-- `OVERFLOW` shows minus glyphs only, and no digit is looked at. -/
  run : 2 ≤ r → .overflow ∈ ds →
    .blank ∉ ds ∧ ∀ p : Position, inBudget s.cur.toNat m p = true → t.seg[p.val] = s.params.segMinus
  /-- Without it every digit stands on the display, within the budget. -/
  digits : 2 ≤ r → .overflow ∉ ds → ∀ j, j < k → j < m ∧ ∃ h : s.cur.toNat + j < 8,
    t.seg[s.cur.toNat + j] = positionGlyph s.params v r pad j
  /-- `BLANK`: some digit of the value is 16 or more and shows as blank. -/
  blank : 2 ≤ r → .blank ∈ ds → ∃ j, j < k ∧ 16 ≤ v / r ^ j % r ∧ ∃ h : s.cur.toNat + j < 8,
    t.seg[s.cur.toNat + j] = s.params.segOff
  /-- Without `BLANK` and `OVERFLOW` every digit of the value is a table entry. -/
  table : 2 ≤ r → .overflow ∉ ds → .blank ∉ ds → ∀ j, j < k → v / r ^ j % r < 16
  /-- `NOOP` of single positions: fewer positions are written than the budget has. -/
  dropped : 2 ≤ r → (.noop ∈ ds ↔ (positionsWritten t.trace).length < m)

/-- The outcomes of an unsigned print. -/
def UnsignedOutcomes (ds : List Degraded) (s t : State) (W : WidthClass) (val : BitVec 32) (rdx mxd pad : Byte) : Prop :=
  PrintOutcomes ds s t (cutValue W val) (numDigits s.params.ndCap (cutValue W val) rdx.toNat)
    (numDigits s.params.ndCap (cutValue W val) rdx.toNat) rdx.toNat mxd.toNat pad.toNat

/-- The outcomes of a signed print, which needs one more position for the sign and pads with 1 (R125). -/
def SignedOutcomes (ds : List Degraded) (s t : State) (W : WidthClass) (val : BitVec 32) (rdx mxd : Byte) : Prop :=
  PrintOutcomes ds s t (magnitude W (cutValue W val)) (numDigits s.params.ndCap (magnitude W (cutValue W val)) rdx.toNat)
    (numDigits s.params.ndCap (magnitude W (cutValue W val)) rdx.toNat + 1) rdx.toNat mxd.toNat 1

/-- What the outcomes `ds` of a command say of the step from `s` to `t`, by the table of R172. -/
def OutcomesTell (i : Instr) (ds : List Degraded) (s t : State) : Prop :=
  match i with
  | .enc a => (.noop ∉ ds ∧ .overflow ∉ ds) ∧ (.blank ∈ ds → 16 ≤ a.toNat ∧ t.response = some s.params.segOff) ∧
      (.blank ∉ ds → ∃ h : a.toNat < 16, t.response = some s.params.segTab[a.toNat])
  | .swpp _ => NoopIsSilence ds s t ∧ .overflow ∉ ds ∧ .blank ∉ ds
  | .swpl _ => NoopIsSilence ds s t ∧ .overflow ∉ ds ∧ .blank ∉ ds
  | .swpb _ => ds = []
  | .setseg _ _ => NoopIsSilence ds s t ∧ .overflow ∉ ds ∧ .blank ∉ ds
  | .setdig a b => NoopIsSilence ds s t ∧ .overflow ∉ ds ∧ (.noop ∈ ds → .blank ∉ ds) ∧
      (.blank ∈ ds → 16 ≤ b.toNat ∧ ∃ h : a.toNat < 8, t.seg[a.toNat] = s.params.segOff) ∧
      (.noop ∉ ds → .blank ∉ ds →
        ∃ (h : a.toNat < 8) (h' : b.toNat < 16), t.seg[a.toNat] = s.params.segTab[b.toNat])
  | .doton _ => NoopIsSilence ds s t ∧ .overflow ∉ ds ∧ .blank ∉ ds
  | .dotoff _ => NoopIsSilence ds s t ∧ .overflow ∉ ds ∧ .blank ∉ ds
  | .setdots _ => ds = []
  | .refresh => ds = []
  | .clear => ds = []
  | .setcur a => (.noop ∈ ds ↔ t.cur ≠ a) ∧ (.noop ∈ ds → SilentNoop s t) ∧ .overflow ∉ ds ∧ .blank ∉ ds
  | .printu8 v r m p => UnsignedOutcomes ds s t .w8 v r m p
  | .printu16 v r m p => UnsignedOutcomes ds s t .w16 v r m p
  | .printu32 v r m p => UnsignedOutcomes ds s t .w32 v r m p
  | .prints8 v r m => SignedOutcomes ds s t .w8 v r m
  | .prints16 v r m => SignedOutcomes ds s t .w16 v r m
  | .prints32 v r m => SignedOutcomes ds s t .w32 v r m
  | .setled _ _ => NoopIsSilence ds s t ∧ .overflow ∉ ds ∧ .blank ∉ ds
  | .ledson a b => (.noop ∈ ds → SilentNoop s t ∧ 3 ≤ b.toNat) ∧ .overflow ∉ ds ∧ .blank ∉ ds ∧
      (.noop ∉ ds → legalColor b = true ∧ WritesLeds s t (fun l => a.getLsbD l.val) b)
  | .ledsoff _ => ds = []
  | .getbtn => ds = []

end Sys2Proof.Machine
end

