-- ==== Sys2Proof/Certificates/Slice0/Obligations.lean ====
section
/-! DEFINITION. The statements for the provers, in the order of OBLIGATIONS.json. Every statement holds for every state, the
states no run reaches included, unless it names a premise. -/

open Sys2Proof Sys2Proof.Machine

/-! ### The decoder -/

/-- R66: command words written out by hand decode to the commands they stand for. -/
def Obligations.WorkedEncodingsDecode : Prop :=
  decode 0x100000000000000F = .ok (.enc 15) ∧ decode 0x1300000000000001 = .ok (.swpb 1) ∧
  decode 0x2000000000004002 = .ok (.setseg 2 0x40) ∧ decode 0x2700000000000002 = .ok (.setcur 2) ∧
  decode 0x310A0301000003E8 = .ok (.printu16 1000 10 3 1) ∧ decode 0x360A0400FFFFFFFB = .ok (.prints32 0xFFFFFFFB 10 4) ∧
  decode 0x410000000000020F = .ok (.ledson 0x0F 2) ∧ decode 0x4300000000000000 = .ok .getbtn

/-- R64, R65: the decoder gives a command exactly for the 22 opcodes of R63, and names the opcode it rejects. -/
def Obligations.DecoderAcceptsExactlyTheOpcodes : Prop :=
  ∀ w : CommandWord,
    (opField w ∈ opcodes → ∃ i, decode w = .ok i ∧ i.opcode = opField w ∧ i.wellFormed = true) ∧
    (opField w ∉ opcodes → decode w = .error (.reservedOpcode (opField w)))

/-- R65 (2) (decision D4): bits outside the command's format do not change what a word decodes to. -/
def Obligations.UnusedBitsAreIgnored : Prop :=
  ∀ w v : CommandWord, w &&& usedBits (opField w) = v &&& usedBits (opField w) → decode w = decode v

/-- R60 to R64: decoding the encoding of a well-formed command gives the command back, with every operand. -/
def Obligations.DecodeOfEncodeIsTheCommand : Prop :=
  ∀ i : Instr, i.wellFormed = true → decode (encode i) = .ok i

/-- R60 to R65: encoding what a word decodes to gives the word back, with zeros in the ignored bits. -/
def Obligations.EncodeOfDecodeIsTheUsedBits : Prop :=
  ∀ (w : CommandWord) (i : Instr), decode w = .ok i → encode i = w &&& usedBits (opField w)

/-- R67 (decision D3; the text's open points are notes/assumptions/20.md): every command a text assembles to is well formed,
and its word decodes to it again. -/
def Obligations.AssembledCommandsDecodeBack : Prop :=
  ∀ (P : Params) (text : String) (cmds : List Instr), assemble P text = .ok cmds →
    ∀ i ∈ cmds, i.wellFormed = true ∧ decode (encode i) = .ok i

/-! ### The step -/

/-- R28, R69 (the port in State is notes/assumptions/9.md): a step performs the command its word decodes to, on the state with
that word taken from the port. -/
def Obligations.StepPerformsTheDecodedCommand : Prop :=
  ∀ (s : State) (w : CommandWord) (rest : List HostMove) (i : Instr),
    s.pending = .command w :: rest → decode w = .ok i → step s = exec i { s with pending := rest }

/-- R65 (1) (decision D4): a word with a reserved opcode is a silent no-op. -/
def Obligations.ReservedOpcodeIsSilent : Prop :=
  ∀ (s : State) (w : CommandWord) (rest : List HostMove), s.pending = .command w :: rest → opField w ∉ opcodes →
    ∃ t, step s = .next t ∧ SilentNoop { s with pending := rest } t

/-- R190: with no move of the host to come the core waits. The idle step is the model's (notes/assumptions/8.md). -/
def Obligations.IdleCoreWaits : Prop :=
  ∀ s : State, s.pending = [] → step s = .next s

/-- R31, R190, R191 (decision D17): the reset event between two commands. -/
def Obligations.ResetEventClearsTheCore : Prop :=
  ∀ (s : State) (rest : List HostMove), s.pending = .reset :: rest →
    ∃ t, step s = .next t ∧ (∀ p : Position, t.seg[p.val] = 0) ∧ t.dots = 0 ∧ t.cur = 0 ∧ t.trace = [] ∧
      t.response = none ∧ t.pending = rest ∧ t.scans = s.scans ∧ t.params = s.params ∧
      (∀ a, Memory.read t.chip a = none) ∧
      ∀ a : RegAddr, regValue t a = Config.chipPowerUp (s.resets + 1) a.val

/-- R191 (decision D17): a reset event inside a command leaves the transactions already completed and cuts off the rest. -/
def Obligations.ResetInsideACommandCutsItsTrace : Prop :=
  ∀ (s : State) (w : CommandWord) (done : Nat) (rest : List HostMove), s.pending = .resetDuring w done :: rest →
    ∃ t u, step s = .next t ∧ step { s with pending := .command w :: rest } = .next u ∧ t.trace = u.trace.take done ∧
      t.response = none ∧ (∀ p : Position, t.seg[p.val] = 0) ∧ t.dots = 0 ∧ t.cur = 0 ∧ t.pending = rest ∧
      t.params = s.params ∧ ∀ a, Memory.read t.chip a = none

/-- R170, R30: every step answers a next state, in which the first of the host's moves is gone and the parameters of the build
stand. That the moves are a list in the state, that a reset event is one of them, and that a step with no move to take answers
too, are the model's choices (notes/assumptions/9.md, 10.md, 8.md; the parameters: 32.md). -/
def Obligations.EveryStepAnswersNext : Prop :=
  ∀ s : State, ∃ t, step s = .next t ∧ t.pending = s.pending.tail ∧ t.params = s.params

/-- R28, R69 (decision D22): a run over all the moves at the port performs them one after another, each on the state the one
before it left, and empties the port. The list of moves and the reset events in it are the model's (notes/assumptions/9.md,
10.md). -/
def Obligations.RunDrainsThePort : Prop :=
  ∀ s : State, ∃ t, Host.Core.run Sys2Proof.core s.pending.length s = .next t ∧ t.pending = [] ∧
    performAllMoves s.pending { s with pending := [] } = .next t

/-- R28, R54, R69 (arrival order: decision D22; the port in State: notes/assumptions/9.md): a program of command words runs as
its commands one after another, each to its end before the next; what still waits at the port changes nothing of it. -/
def Obligations.ProgramRunsItsCommandsInOrder : Prop :=
  ∀ (cmds : List Instr) (s : State) (rest : List HostMove), (∀ i ∈ cmds, i.wellFormed = true) →
    ∃ t, Host.Core.run Sys2Proof.core cmds.length
        { s with pending := cmds.map (fun i => .command (encode i)) ++ rest } = .next { t with pending := rest } ∧
      performAll cmds s = .next t

/-! ### The whole machine -/

/-- R170: every command ends in a next state, which satisfies the invariants of R21 and R23 where the state before did. -/
def Obligations.EveryCommandCompletes : Prop :=
  ∀ (i : Instr) (s : State), ∃ t, exec i s = .next t ∧ (SegmentsClean s → SegmentsClean t) ∧
    (CursorInRange s → CursorInRange t)

/-- R21, R23, R27, R155, R8: the reset state is safe. The reset values are decision D17; that the parameters stand in the state,
with their defaults at reset, is notes/assumptions/32.md. -/
def Obligations.ResetStateIsSafe : Prop :=
  Safe State.reset ∧ State.reset.params = defaultParams ∧ (∀ p : Position, State.reset.seg[p.val] = 0) ∧
    State.reset.dots = 0 ∧ State.reset.cur = 0 ∧ State.reset.trace = [] ∧ State.reset.response = none ∧
    ∀ a, Memory.read State.reset.chip a = none

/-- R21, R23, R27, R155, R8: every step keeps a safe state safe, whatever admissible parameters it has. -/
def Obligations.StepKeepsSafe : Prop :=
  ∀ s t : State, Safe s → step s = .next t → Safe t

/-- R48, R54 (decision D19): the chip image after a command is the reference collaborator's answer to the trace, transaction
by transaction. -/
def Obligations.ChipImageIsTheTraceApplied : Prop :=
  ∀ (i : Instr) (s t : State), exec i s = .next t → t.chip = t.trace.foldl Memory.apply s.chip

/-- R22, R26: which commands write `DOTS`. -/
def Obligations.DotsWrittenOnlyByDotCommands : Prop :=
  ∀ (i : Instr) (s t : State), exec i s = .next t → t.dots ≠ s.dots →
    (∃ a, i = .doton a) ∨ (∃ a, i = .dotoff a) ∨ (∃ a, i = .setdots a) ∨ i = .clear

/-- R23, R26 (decisions D6, D7, D19): only `SETCUR` writes `CUR`. -/
def Obligations.CursorWrittenOnlyBySetcur : Prop :=
  ∀ (i : Instr) (s t : State), exec i s = .next t → t.cur ≠ s.cur → ∃ a, i = .setcur a

/-- R21, R26: which commands write `SEG`. -/
def Obligations.SegmentsWrittenOnlyByDisplayCommands : Prop :=
  ∀ (i : Instr) (s t : State), exec i s = .next t → t.seg ≠ s.seg →
    (∃ a b, i = .setseg a b) ∨ (∃ a b, i = .setdig a b) ∨ i = .clear ∨
    (∃ W v r m p, i = .printUnsigned W v r m p) ∨ (∃ W v r m, i = .printSigned W v r m)

/-- R156 (6), R200: which commands change an LED register. -/
def Obligations.LedRegistersWrittenOnlyByLedCommands : Prop :=
  ∀ (i : Instr) (s t : State) (l : LedIndex), exec i s = .next t →
    Memory.read t.chip (ledAddr l).val ≠ Memory.read s.chip (ledAddr l).val →
    (∃ a b, i = .setled a b) ∨ (∃ a b, i = .ledson a b) ∨ (∃ a, i = .ledsoff a) ∨ i = .clear

/-- R14, R25: which commands give a response, and every one of them leaves the display registers alone. -/
def Obligations.ResponsesOnlyFromLookupsAndKeys : Prop :=
  ∀ (i : Instr) (s t : State), exec i s = .next t → t.response ≠ none →
    ((∃ a, i = .enc a) ∨ (∃ a, i = .swpp a) ∨ (∃ a, i = .swpl a) ∨ (∃ a, i = .swpb a) ∨ i = .getbtn) ∧ SameRegisters s t

/-- R205 (decision D27): the number of transactions of every command. -/
def Obligations.TransactionCountsAsTabulated : Prop :=
  ∀ (i : Instr) (s : State), ∃ t, exec i s = .next t ∧ transactionCounts t.trace = expectedCounts i s

/-- R109 (2), R156 (1) (decisions D9, D10): a command of the board driver writes only legal color bytes to odd addresses,
every other command writes only even addresses. -/
def Obligations.WritesKeepToTheirRegisters : Prop :=
  ∀ (i : Instr) (s t : State) (a : RegAddr) (v : Byte), s.params.Admissible → exec i s = .next t → .wr a v ∈ t.trace →
    (((∃ x b, i = .setled x b) ∨ (∃ x b, i = .ledson x b) ∨ (∃ x, i = .ledsoff x)) ∧ a.val % 2 = 1 ∧ legalColor v = true) ∨
    (¬ ((∃ x b, i = .setled x b) ∨ (∃ x b, i = .ledson x b) ∨ (∃ x, i = .ledsoff x)) ∧ a.val % 2 = 0)

/-- R24, R48: the triple `(SEG, DOTS, CUR)` is the whole state of the core: on one build, what a command does to it, emits and
answers depends on nothing else but, for `GETBTN`, the collaborator's answer to its `RDK`. -/
def Obligations.RegisterTripleIsTheWholeCoreState : Prop :=
  ∀ (i : Instr) (s u : State), SameRegisters s u → s.params = u.params →
    (i = .getbtn → Config.keyScan s.scans = Config.keyScan u.scans) →
    ∃ t w, exec i s = .next t ∧ exec i u = .next w ∧ SameRegisters t w ∧ t.trace = w.trace ∧ t.response = w.response

/-- R156 (2), R83, R91 to R93: the look-up and board commands neither change the display registers nor depend on them; on one
build they depend on nothing of the state but, for `GETBTN`, the collaborator's answer to its `RDK`. -/
def Obligations.LookupAndBoardCommandsIgnoreTheDisplay : Prop :=
  ∀ (i : Instr) (a b : Byte),
    i ∈ [.enc a, .swpp a, .swpl a, .swpb a, .setled a b, .ledson a b, .ledsoff a, .getbtn] →
    ∀ s u : State, s.params = u.params → (i = .getbtn → Config.keyScan s.scans = Config.keyScan u.scans) →
      ∃ t w, exec i s = .next t ∧ exec i u = .next w ∧ t.trace = w.trace ∧ t.response = w.response ∧
        SameRegisters s t ∧ SameRegisters u w

/-- R27, R192 (decision D19): once the chip register of a position agrees with the mirror, every command keeps it so. -/
def Obligations.CoherenceOnceEstablishedStays : Prop :=
  ∀ (i : Instr) (s t : State) (p : Position), Coherent s p → exec i s = .next t → Coherent t p

/-! ### The look-ups -/

/-- R80, R83 (that the look-up stands at the port, with the callers' guard: decision D21): `ENC` responds the table entry of a
digit value up to 15 and blank above, and changes nothing. -/
def Obligations.EncRespondsTheGlyph : Prop :=
  ∀ (a : Byte) (s : State), ∃ t, exec (.enc a) s = .next t ∧ QueryOnly s t ∧
    (∀ h : a.toNat ≤ 15, t.response = some (s.params.segTab[a.toNat]'(by omega))) ∧
    (16 ≤ a.toNat → t.response = some s.params.segOff)

/-- R80 to R82, R85: under all admissible parameters no glyph has the dot bit, a digit value from 16 on is blank, the glyphs of
0 and 15 are the source's, and those of 10 to 15 are pairwise different. The default table, entries 1 to 14 of which are PRESUMED
(notes/assumptions/3.md), is admissible, has sixteen different entries and none blank. The letters of the lit segments are R20's derived reading. -/
def Obligations.GlyphsHaveNoDotBit : Prop :=
  (∀ (P : Params) (d : Nat), P.Admissible → (glyph P d).getLsbD 7 = false ∧ (16 ≤ d → glyph P d = 0x00) ∧
    glyph P 0 = 0b00111111 ∧ glyph P 15 = 0b01110001 ∧
    litSegments (glyph P 0) = [.a, .b, .c, .d, .e, .f] ∧ litSegments (glyph P 15) = [.a, .e, .f, .g] ∧
    ∀ e, 10 ≤ d → d ≤ 15 → 10 ≤ e → e ≤ 15 → glyph P d = glyph P e → d = e) ∧
  defaultParams.Admissible ∧
  ∀ d e : Fin 16, glyph defaultParams d.val ≠ 0x00 ∧ (glyph defaultParams d.val = glyph defaultParams e.val → d = e)

/-- R91, R92 (decision D21): `SWPP` and `SWPL` respond `7 - a` in range and give no response out of range. -/
def Obligations.SwapQueriesRespondTheReversal : Prop :=
  ∀ (a : Byte) (s : State), ∀ i ∈ [Instr.swpp a, Instr.swpl a], ∃ t, exec i s = .next t ∧ QueryOnly s t ∧
    (a.toNat ≤ 7 → ∃ r : Byte, t.response = some r ∧ r.toNat + a.toNat = 7) ∧ (8 ≤ a.toNat → t.response = none)

/-- R93 (that the function stands at the port: decision D21): `SWPB` responds the byte with bit `i` of the operand at bit `7 -
i`, and changes nothing; `SWPB` of its response responds the operand. -/
def Obligations.SwpbRespondsTheReversedByte : Prop :=
  ∀ (a : Byte) (s : State), ∃ t, exec (.swpb a) s = .next t ∧ QueryOnly s t ∧
    ∃ r : Byte, t.response = some r ∧ (∀ i, i ≤ 7 → r.getLsbD i = a.getLsbD (7 - i)) ∧
      ∃ u, exec (.swpb r) t = .next u ∧ u.response = some a

/-- R90, R96 (which the spec derives from R90): the three reversals and their laws. `swapPos` and `swapLed` are `7 -` their
argument, `swapBits` puts bit `7 - i` at bit `i`; each undoes itself and is a bijection, the first two have no fixed point,
the third has 16 (the palindromes) and distributes over `|` and `&`. -/
def Obligations.ReversalsAreInvolutions : Prop :=
  (∀ p : Position, (swapPos p).val = 7 - p.val) ∧ (∀ l : LedIndex, (swapLed l).val = 7 - l.val) ∧
  (∀ (b : Byte) (i : Nat), i ≤ 7 → (swapBits b).getLsbD i = b.getLsbD (7 - i)) ∧
  (∀ p : Position, swapPos (swapPos p) = p ∧ swapPos p ≠ p) ∧ (∀ l : LedIndex, swapLed (swapLed l) = l ∧ swapLed l ≠ l) ∧
  (∀ b : Byte, swapBits (swapBits b) = b) ∧
  Function.Bijective swapPos ∧ Function.Bijective swapLed ∧ Function.Bijective swapBits ∧
  ((List.range 256).filter (fun n => swapBits (BitVec.ofNat 8 n) = BitVec.ofNat 8 n)).length = 16 ∧
  ∀ x y : Byte, swapBits (x ||| y) = swapBits x ||| swapBits y ∧ swapBits (x &&& y) = swapBits x &&& swapBits y

/-- R41 to R43 (decision D9): every chip register is the register of exactly one digit or of exactly one LED. -/
def Obligations.AddressMapIsAsTabulated : Prop :=
  (∀ p : Position, (digitAddr p).val = 14 - 2 * p.val) ∧ (∀ l : LedIndex, (ledAddr l).val = 15 - 2 * l.val) ∧
  ∀ a : RegAddr, (a.val % 2 = 0 → ∃! p, digitAddr p = a) ∧ (a.val % 2 = 1 → ∃! l, ledAddr l = a)

/-! ### The display state -/

/-- R101 (decision D8): `SETSEG` at a position of the display stores bits 6 to 0 of the byte and renders the position. -/
def Obligations.SetsegStoresAndRenders : Prop :=
  ∀ (a b : Byte) (s : State) (h : a.toNat ≤ 7), ∃ t, exec (.setseg a b) s = .next t ∧
    (∀ p : Position, t.seg[p.val] = if p.val = a.toNat then b &&& 0x7F else s.seg[p.val]) ∧
    t.dots = s.dots ∧ t.cur = s.cur ∧ RendersOne s t ⟨a.toNat, by omega⟩

/-- R102: `SETDIG` stores the glyph of the digit value, blank from 16 on, and renders the position; out of range it is a silent
no-op, whatever the digit value. -/
def Obligations.SetdigStoresTheGlyphAndRenders : Prop :=
  ∀ (a b : Byte) (s : State),
    (s.params.Admissible → ∀ h : a.toNat ≤ 7, ∃ t, exec (.setdig a b) s = .next t ∧
      (∀ p : Position, t.seg[p.val] =
        if p.val = a.toNat then (if hb : b.toNat ≤ 15 then s.params.segTab[b.toNat]'(by omega) else s.params.segOff)
        else s.seg[p.val]) ∧
      t.dots = s.dots ∧ t.cur = s.cur ∧ RendersOne s t ⟨a.toNat, by omega⟩) ∧
    (8 ≤ a.toNat → ∃ t, exec (.setdig a b) s = .next t ∧ SilentNoop s t)

/-- R103, R104: `DOTON` and `DOTOFF` set and clear one bit of `DOTS` and render that position alone, also where the bit already
has that value; out of range they are silent no-ops. -/
def Obligations.DotCommandsWriteOneBit : Prop :=
  ∀ (a : Byte) (s : State),
    (∀ h : a.toNat ≤ 7,
      (∃ t, exec (.doton a) s = .next t ∧
        (∀ j, j < 8 → t.dots.getLsbD j = if j = a.toNat then true else s.dots.getLsbD j) ∧
        t.seg = s.seg ∧ t.cur = s.cur ∧ RendersOne s t ⟨a.toNat, by omega⟩) ∧
      (∃ t, exec (.dotoff a) s = .next t ∧
        (∀ j, j < 8 → t.dots.getLsbD j = if j = a.toNat then false else s.dots.getLsbD j) ∧
        t.seg = s.seg ∧ t.cur = s.cur ∧ RendersOne s t ⟨a.toNat, by omega⟩)) ∧
    (8 ≤ a.toNat → ∀ i ∈ [Instr.doton a, .dotoff a], ∃ t, exec i s = .next t ∧ SilentNoop s t)

/-- R105 (ascending order: decision D11): `SETDOTS` replaces the dot mask and renders all eight positions. -/
def Obligations.SetdotsReplacesTheMask : Prop :=
  ∀ (a : Byte) (s : State), ∃ t, exec (.setdots a) s = .next t ∧ t.dots = a ∧ t.seg = s.seg ∧ t.cur = s.cur ∧
    RendersEight s t

/-- R106 (ascending order: decision D11): `REFRESH` renders all eight positions and changes no register; a second one emits
the same writes. -/
def Obligations.RefreshPushesTheMirror : Prop :=
  ∀ s : State, ∃ t u, exec .refresh s = .next t ∧ SameRegisters s t ∧ RendersEight s t ∧ exec .refresh t = .next u ∧
    u.trace = t.trace ∧ SameRegisters s u

/-- R107 (decision D19): `CLEAR` zeroes `SEG` and `DOTS`, keeps `CUR`, and emits one `CLR`, after which all sixteen chip
registers hold zero. -/
def Obligations.ClearBlanksStateAndChip : Prop :=
  ∀ s : State, ∃ t, exec .clear s = .next t ∧ (∀ p : Position, t.seg[p.val] = 0) ∧ t.dots = 0 ∧ t.cur = s.cur ∧
    t.trace = [.clr] ∧ t.response = none ∧ SameEnvironment s t ∧ (∀ a : RegAddr, Memory.read t.chip a.val = some 0) ∧
    (∀ a, 16 ≤ a → Memory.read t.chip a = none) ∧ ∀ p, Coherent t p

/-- R108 (decision D6): `SETCUR` with an operand in range writes `CUR` and nothing else. -/
def Obligations.SetcurWritesTheCursor : Prop :=
  ∀ (a : Byte) (s : State), a.toNat ≤ 7 → ∃ t, exec (.setcur a) s = .next t ∧ t.cur = a ∧ t.seg = s.seg ∧
    t.dots = s.dots ∧ t.trace = [] ∧ t.response = none ∧ SameEnvironment s t ∧ SameChip s t

/-- R171 (a), R172 (decisions D6, D21): a position or LED index above 7 makes the command a silent no-op. -/
def Obligations.OutOfRangeIndexIsSilent : Prop :=
  ∀ (a b : Byte) (s : State), 8 ≤ a.toNat →
    ∀ i ∈ [Instr.swpp a, .swpl a, .setseg a b, .setdig a b, .doton a, .dotoff a, .setcur a, .setled a b],
      ∃ t, exec i s = .next t ∧ SilentNoop s t

/-- R100: `Render` always emits exactly one write, to the position's digit register, of the segments with the dot in bit 7. -/
def Obligations.RenderEmitsOneWrite : Prop :=
  ∀ (p : Position) (s : State), (render p s).trace = s.trace ++ [.wr (digitAddr p) (s.seg[p.val] ||| (bitOf s.dots p.val <<< 7))] ∧
    SameRegisters s (render p s) ∧ SameEnvironment s (render p s) ∧ Coherent (render p s) p ∧
    SameChipExcept (fun a => a = (digitAddr p).val) s (render p s) ∧
    (SegmentsClean s → (combined s p).getLsbD 7 = s.dots.getLsbD p.val ∧
      ∀ j, j < 7 → (combined s p).getLsbD j = (s.seg[p.val]).getLsbD j)

/-! ### The formatter -/

/-- R120, R121, R135, R138: the overflow check passes exactly for the values below `r ^ q`, where `q` positions are left of the
budget and of the display; for `q = 0` nothing fits. So it is for `NDCAP = 9` (decision D13, notes/assumptions/6.md), and for
`NDCAP = 8` outside the corner of R138; in the corner the cap 8 passes and the cap 9 does not. -/
def Obligations.OverflowCheckIsExact : Prop :=
  (∀ cap cur v r m extra : Nat, 2 ≤ r →
    (cap = 9 ∨ cap = 8 ∧ (1 ≤ extra ∨ v < r ^ 8 ∨ m < 8 ∨ 1 ≤ cur)) →
    (overflows cur (numDigits cap v r + extra) m = false ↔
      extra < min m (8 - cur) ∧ v < r ^ (min m (8 - cur) - extra))) ∧
  ∀ v r m : Nat, 2 ≤ r → r ^ 8 ≤ v → 8 ≤ m →
    overflows 0 (numDigits 8 v r) m = false ∧ overflows 0 (numDigits 9 v r) m = true

/-- R126, R134 (decision D15): the magnitude is the exact absolute value, the most negative operand included. -/
def Obligations.MagnitudeIsExact : Prop :=
  ∀ (W : WidthClass) (x : Nat), x < 2 ^ W.bits →
    (magnitude W x : Int) = |signedValue W x| ∧ -(2 ^ (W.bits - 1) : Int) ≤ signedValue W x ∧
      signedValue W x < 2 ^ (W.bits - 1) ∧ (signedValue W x - x) % 2 ^ W.bits = 0

/-- R133 (decision D12): a print with radix 0 or 1 is a silent no-op. -/
def Obligations.RadixBelowTwoIsSilent : Prop :=
  ∀ (W : WidthClass) (val : BitVec 32) (rdx mxd pad : Byte) (s : State), rdx.toNat < 2 →
    (∃ t, exec (.printUnsigned W val rdx mxd pad) s = .next t ∧ SilentNoop s t) ∧
    (∃ t, exec (.printSigned W val rdx mxd) s = .next t ∧ SilentNoop s t)

/-- R123, R124, R127 to R129 (decisions D7, D14): an unsigned print that fits writes the digit of weight `r ^ i` to position
`CUR + i`, for every position of its budget on the display, and nothing else. -/
def Obligations.UnsignedPrintShowsTheDigits : Prop :=
  ∀ (W : WidthClass) (val : BitVec 32) (rdx mxd pad : Byte) (s : State), 2 ≤ rdx.toNat → s.params.Admissible →
    overflows s.cur.toNat (numDigits s.params.ndCap (cutValue W val) rdx.toNat) mxd.toNat = false →
    ∃ t, exec (.printUnsigned W val rdx mxd pad) s = .next t ∧ PrintFrame s t mxd.toNat ∧
      (∀ p : Position, inBudget s.cur.toNat mxd.toNat p = true → Coherent t p ∧
        t.seg[p.val] = positionGlyph s.params (cutValue W val) rdx.toNat pad.toNat (p.val - s.cur.toNat)) ∧
      t.trace = (budgetPositions s.cur.toNat mxd.toNat).map (fun p => .wr (digitAddr p) (combined t p))

/-- R122, R124, R125, R127 to R132 (decisions D7, D13, D14): a print that overflows writes minus glyphs to every position of
its budget on the display, and no digit. -/
def Obligations.OverflowShowsMinusGlyphs : Prop :=
  ∀ (W : WidthClass) (val : BitVec 32) (rdx mxd pad : Byte) (s : State) (i : Instr), 2 ≤ rdx.toNat → s.params.Admissible →
    (i = .printUnsigned W val rdx mxd pad ∧
        overflows s.cur.toNat (numDigits s.params.ndCap (cutValue W val) rdx.toNat) mxd.toNat = true ∨
      i = .printSigned W val rdx mxd ∧
        overflows s.cur.toNat (numDigits s.params.ndCap (magnitude W (cutValue W val)) rdx.toNat + 1) mxd.toNat = true) →
    ∃ t, exec i s = .next t ∧ PrintFrame s t mxd.toNat ∧
      (∀ p : Position, inBudget s.cur.toNat mxd.toNat p = true → Coherent t p ∧ t.seg[p.val] = s.params.segMinus) ∧
      t.trace = (budgetPositions s.cur.toNat mxd.toNat).map (fun p => .wr (digitAddr p) (combined t p))

/-- R125, R130 to R132 (decisions D7, D14, D15, D16): a signed print that fits writes the digits of the magnitude as an
unsigned print with pad 1, then the sign at the position left of the most significant digit. -/
def Obligations.SignedPrintShowsDigitsAndSign : Prop :=
  ∀ (W : WidthClass) (val : BitVec 32) (rdx mxd : Byte) (s : State) (k : Nat), 2 ≤ rdx.toNat → s.params.Admissible →
    k = numDigits s.params.ndCap (magnitude W (cutValue W val)) rdx.toNat →
    overflows s.cur.toNat (k + 1) mxd.toNat = false →
    ∃ t, ∃ q : Position, exec (.printSigned W val rdx mxd) s = .next t ∧ PrintFrame s t mxd.toNat ∧
      q.val = s.cur.toNat + k ∧ inBudget s.cur.toNat mxd.toNat q = true ∧
      (∀ p : Position, inBudget s.cur.toNat mxd.toNat p = true → Coherent t p ∧
        t.seg[p.val] =
          if p = q then (if isNegative W (cutValue W val) then s.params.segMinus else s.params.segOff)
          else positionGlyph s.params (magnitude W (cutValue W val)) rdx.toNat 1 (p.val - s.cur.toNat)) ∧
      t.trace =
        (budgetPositions s.cur.toNat mxd.toNat).map
          (fun p => .wr (digitAddr p)
            (withDot s p (positionGlyph s.params (magnitude W (cutValue W val)) rdx.toNat 1 (p.val - s.cur.toNat)))) ++
        [.wr (digitAddr q) (combined t q)]

/-- R123, R134, R120 (decision D14; the cap `NDCAP = 9` of decision D13, notes/assumptions/6.md, or a value outside the corner of
R138): what an unsigned print that fits shows denotes its value: the shown digits are those of the positional
expansion, least significant at the cursor. A zero printed with `pad = 0` is invisible (R136 (1)). -/
def Obligations.UnsignedDigitsDenoteTheValue : Prop :=
  ∀ (W : WidthClass) (val : BitVec 32) (rdx mxd pad : Byte) (s : State) (n : Nat), 2 ≤ rdx.toNat → s.params.Admissible →
    n = numDigits s.params.ndCap (cutValue W val) rdx.toNat → overflows s.cur.toNat n mxd.toNat = false →
    (cutValue W val ≠ 0 ∨ 1 ≤ pad.toNat) → (s.params.ndCap = 9 ∨ cutValue W val < rdx.toNat ^ 8) →
    ∃ t, ∃ d : Nat → Nat, exec (.printUnsigned W val rdx mxd pad) s = .next t ∧
      cutValue W val = ∑ j ∈ Finset.range n, d j * rdx.toNat ^ j ∧
      ∀ j, j < n → d j < rdx.toNat ∧ ∃ h : s.cur.toNat + j < 8, t.seg[s.cur.toNat + j] = glyph s.params (d j)

/-- R125, R126 (decisions D15, D16): what a signed print that fits shows denotes its value: the digits of the absolute value,
and left of them a minus glyph exactly for a negative value, else a blank. -/
def Obligations.SignedDigitsDenoteTheValue : Prop :=
  ∀ (W : WidthClass) (val : BitVec 32) (rdx mxd : Byte) (s : State) (k : Nat), 2 ≤ rdx.toNat → s.params.Admissible →
    k = numDigits s.params.ndCap (magnitude W (cutValue W val)) rdx.toNat → overflows s.cur.toNat (k + 1) mxd.toNat = false →
    ∃ t, ∃ d : Nat → Nat, exec (.printSigned W val rdx mxd) s = .next t ∧
      (|signedValue W (cutValue W val)| : Int) = ((∑ j ∈ Finset.range k, d j * rdx.toNat ^ j : Nat) : Int) ∧
      (∀ j, j < k → d j < rdx.toNat ∧ ∃ h : s.cur.toNat + j < 8, t.seg[s.cur.toNat + j] = glyph s.params (d j)) ∧
      ∃ h : s.cur.toNat + k < 8,
        t.seg[s.cur.toNat + k] = if signedValue W (cutValue W val) < 0 then s.params.segMinus else s.params.segOff

/-- R140 (decisions D7, D16): a signed print of a non-negative value that fits leaves no glyph in its budget above its digits,
whatever an earlier print of the same budget left there. -/
def Obligations.NonNegativePrintErasesAnOldSign : Prop :=
  ∀ (W : WidthClass) (x y : BitVec 32) (rdx mxd : Byte) (s t : State) (k : Nat), 2 ≤ rdx.toNat → s.params.Admissible →
    exec (.printSigned W x rdx mxd) s = .next t → isNegative W (cutValue W y) = false →
    k = numDigits s.params.ndCap (cutValue W y) rdx.toNat → overflows s.cur.toNat (k + 1) mxd.toNat = false →
    ∃ u, exec (.printSigned W y rdx mxd) t = .next u ∧ u.cur = s.cur ∧
      ∀ p : Position, s.cur.toNat + k ≤ p.val → p.val < s.cur.toNat + mxd.toNat → u.seg[p.val] = s.params.segOff ∧ Coherent u p

/-! ### LEDs and keys -/

/-- R150 (decisions D9, D10): `SETLED` with both operands in range writes the color to the LED's register and changes nothing
else. -/
def Obligations.SetledWritesOneRegister : Prop :=
  ∀ (a b : Byte) (s : State), a.toNat ≤ 7 → b.toNat ≤ 2 →
    ∃ t, exec (.setled a b) s = .next t ∧ WritesLeds s t (fun l => decide (l.val = a.toNat)) b

/-- R151, R152 (decisions D10, D11): `LEDSON` with a legal color and `LEDSOFF` write one byte to the register of every LED the
mask selects. -/
def Obligations.LedMaskCommandsWriteTheSelected : Prop :=
  ∀ (a b : Byte) (s : State),
    (b.toNat ≤ 2 → ∃ t, exec (.ledson a b) s = .next t ∧ WritesLeds s t (fun l => a.getLsbD l.val) b) ∧
    (∃ t, exec (.ledsoff a) s = .next t ∧ WritesLeds s t (fun l => a.getLsbD l.val) (colorByte s.params.colorOff))

/-- R155, R172 (decision D10): a color operand of 3 or more makes `SETLED` and `LEDSON` silent no-ops. -/
def Obligations.IllegalColorIsSilent : Prop :=
  ∀ (a b : Byte) (s : State), 3 ≤ b.toNat →
    ∀ i ∈ [Instr.setled a b, .ledson a b], ∃ t, exec i s = .next t ∧ SilentNoop s t

/-- R68, R152: commands with a fixed operand that equal another command. -/
def Obligations.EqualCommandsHaveEqualEffects : Prop :=
  (∀ (a : Byte) (s : State), s.params.Admissible → exec (.ledsoff a) s = exec (.ledson a (colorByte s.params.colorOff)) s) ∧
  ∀ (a b : Byte) (s : State) (h : b.toNat ≤ 15), exec (.setdig a b) s = exec (.setseg a (s.params.segTab[b.toNat]'(by omega))) s

/-- R153, R154 (decision D20): `GETBTN` emits one `RDK` and responds its decoding: bit `j` of the response is the bit of the
answered word that R154 tabulates. The answer is a free value, the scan count picks the next one, and an `RDK` changes nothing
in the reference collaborator (notes/assumptions/1.md, 12.md, 15.md). -/
def Obligations.GetbtnRespondsTheDecodedKeys : Prop :=
  ∀ s : State, ∃ t, ∃ raw : KeyWord, ∃ r : Byte, exec .getbtn s = .next t ∧ raw = Config.keyScan s.scans ∧
    t.trace = [.rdk raw] ∧ t.response = some r ∧
    (∀ j, j < 4 → r.getLsbD j = raw.getLsbD (28 - 8 * j) ∧ r.getLsbD (7 - j) = raw.getLsbD (8 * j)) ∧
    SameRegisters s t ∧ SameChip s t ∧ t.scans = s.scans + 1 ∧ t.pending = s.pending ∧ t.resets = s.resets ∧
    t.params = s.params

/-- R154, §8 of the source: on words without stray bits the decoding is the bit-reversed OR of the shifted words. -/
def Obligations.KeyDecodingAgreesWithTheShiftFormula : Prop :=
  ∀ raw : KeyWord, raw &&& 0xEEEEEEEE#32 = 0#32 →
    decodeKeys raw = swapBits ((raw ||| raw >>> 7 ||| raw >>> 14 ||| raw >>> 21).setWidth 8)

/-- R156 (3), (4), (5) (decision D20): the decoding is linear over `|`, ignores stray bits, and hits every mask exactly once
on words without stray bits. -/
def Obligations.KeyDecodingIsABijectionOnKeyBits : Prop :=
  (∀ x y : KeyWord, decodeKeys (x ||| y) = decodeKeys x ||| decodeKeys y) ∧
  (∀ raw : KeyWord, decodeKeys raw = decodeKeys (raw &&& 0x11111111#32)) ∧
  ∀ mask : Byte, ∃! raw : KeyWord, raw &&& 0xEEEEEEEE#32 = 0#32 ∧ decodeKeys raw = mask

/-! ### Degraded outcomes -/

/-- R171 to R173: the outcomes `NOOP`, `OVERFLOW`, `BLANK` that the model names for a command in a state (notes/assumptions/29.md)
are tied to what the command does, in both directions: where an outcome is named the next state shows its effect, and where it
is not the next state shows the effect without it. For a print the checks come in the order of R173: the radix guard, then the
overflow check, then the single positions and digits. -/
def Obligations.DegradedOutcomesNameTheEffects : Prop :=
  ∀ (i : Instr) (s : State), s.params.Admissible → CursorInRange s →
    ∃ t, exec i s = .next t ∧ OutcomesTell i (degraded i s) s t
end

