-- ==== Sys2Proof/Laws/Assembler.lean ====
section
/-! SUPPORT. What the assembler can answer: a print value that fits its width class, and a command of the mnemonic's format. -/

namespace Sys2Proof.Machine

theorem except_bind_ok {ε α β : Type} {x : Except ε α} {f : α → Except ε β} {b : β} :
    x.bind f = .ok b ↔ ∃ a, x = .ok a ∧ f a = .ok b := by
  cases x <;> simp [Except.bind]

theorem except_map_ok {ε α β : Type} {x : Except ε α} {f : α → β} {b : β} :
    x.map f = .ok b ↔ ∃ a, x = .ok a ∧ f a = b := by
  cases x <;> simp [Except.map]

theorem fitsWidth_ofNat {W : WidthClass} {n : Nat} (h : n < 2 ^ W.bits) : fitsWidth W (BitVec.ofNat 32 n) = true := by
  simp only [fitsWidth, decide_eq_true_eq, BitVec.toNat_ofNat]
  exact lt_of_le_of_lt (Nat.mod_le _ _) h

theorem asmUnsigned_fits {W : WidthClass} {t : List Char} {v : BitVec 32} (h : asmUnsigned W t = .ok v) :
    fitsWidth W v = true := by
  obtain ⟨n, -, h⟩ := except_bind_ok.1 h
  split at h
  · cases h; exact fitsWidth_ofNat ‹_›
  · cases h

theorem asmSigned_fits {W : WidthClass} {t : List Char} {v : BitVec 32} (h : asmSigned W t = .ok v) :
    fitsWidth W v = true := by
  unfold asmSigned at h
  split at h
  · obtain ⟨n, -, h⟩ := except_bind_ok.1 h
    split at h
    · cases h; exact fitsWidth_ofNat (Nat.mod_lt _ (by positivity))
    · cases h
  · exact asmUnsigned_fits h

theorem asmZ_ok {i j : Instr} {ops : List (List Char)} (h : asmZ i ops = .ok j) : j = i := by
  unfold asmZ at h
  split at h <;> cases h
  rfl

theorem asmA_ok {f : Byte → Instr} {ops : List (List Char)} {i : Instr} (h : asmA f ops = .ok i) : ∃ a, i = f a := by
  unfold asmA at h
  split at h
  · obtain ⟨a, -, rfl⟩ := except_map_ok.1 h; exact ⟨a, rfl⟩
  · cases h

theorem asmAB_ok {second : List Char → Except AsmError Byte} {f : Byte → Byte → Instr} {ops : List (List Char)} {i : Instr}
    (h : asmAB second f ops = .ok i) : ∃ a b, i = f a b := by
  unfold asmAB at h
  split at h
  · obtain ⟨a, -, h⟩ := except_bind_ok.1 h
    obtain ⟨b, -, rfl⟩ := except_map_ok.1 h
    exact ⟨a, b, rfl⟩
  · cases h

theorem asmPU_ok {W : WidthClass} {ops : List (List Char)} {i : Instr} (h : asmPU W ops = .ok i) :
    ∃ v r m p, fitsWidth W v = true ∧ i = .printUnsigned W v r m p := by
  unfold asmPU at h
  split at h
  · obtain ⟨v, hv, h⟩ := except_bind_ok.1 h
    obtain ⟨r, -, h⟩ := except_bind_ok.1 h
    obtain ⟨m, -, h⟩ := except_bind_ok.1 h
    obtain ⟨p, -, rfl⟩ := except_map_ok.1 h
    exact ⟨v, r, m, p, asmUnsigned_fits hv, rfl⟩
  · cases h

theorem asmPS_ok {W : WidthClass} {ops : List (List Char)} {i : Instr} (h : asmPS W ops = .ok i) :
    ∃ v r m, fitsWidth W v = true ∧ i = .printSigned W v r m := by
  unfold asmPS at h
  split at h
  · obtain ⟨v, hv, h⟩ := except_bind_ok.1 h
    obtain ⟨r, -, h⟩ := except_bind_ok.1 h
    obtain ⟨m, -, rfl⟩ := except_map_ok.1 h
    exact ⟨v, r, m, asmSigned_fits hv, rfl⟩
  · cases h

/-- A command comes from a row of the table. -/
theorem asmCommand_ok {P : Params} {mn : List Char} {ops : List (List Char)} {i : Instr} (h : asmCommand P mn ops = .ok i) :
    ∃ row ∈ asmTable P, row.2 ops = .ok i := by
  unfold asmCommand at h
  split at h
  · exact ⟨_, List.mem_of_find?_eq_some ‹_›, h⟩
  · cases h

end Sys2Proof.Machine
end

