-- ==== Sys2Proof/Laws/Decode.lean ====
section
/-! SUPPORT. The fields of a packed word, and what a decoded word says about its opcode. -/

namespace Sys2Proof

@[simp] theorem opField_packWord (op r m p : Byte) (v : BitVec 32) : opField (packWord op r m p v) = op := by
  ext i hi
  simp only [opField, packWord, BitVec.getElem_extractLsb', BitVec.getLsbD_append]
  simp [show ¬ 56 + i < 32 by omega, show ¬ 56 + i - 32 < 8 by omega, show ¬ 56 + i - 32 - 8 < 8 by omega,
    show ¬ 56 + i - 32 - 8 - 8 < 8 by omega, show 56 + i - 32 - 8 - 8 - 8 = i by omega, hi]

@[simp] theorem rdxField_packWord (op r m p : Byte) (v : BitVec 32) : rdxField (packWord op r m p v) = r := by
  ext i hi
  simp only [rdxField, packWord, BitVec.getElem_extractLsb', BitVec.getLsbD_append]
  simp [show ¬ 48 + i < 32 by omega, show ¬ 48 + i - 32 < 8 by omega, show ¬ 48 + i - 32 - 8 < 8 by omega,
    show 48 + i - 32 - 8 - 8 = i by omega, hi]

@[simp] theorem mxdField_packWord (op r m p : Byte) (v : BitVec 32) : mxdField (packWord op r m p v) = m := by
  ext i hi
  simp only [mxdField, packWord, BitVec.getElem_extractLsb', BitVec.getLsbD_append]
  simp [show ¬ 40 + i < 32 by omega, show ¬ 40 + i - 32 < 8 by omega, show 40 + i - 32 - 8 = i by omega, hi]

@[simp] theorem padField_packWord (op r m p : Byte) (v : BitVec 32) : padField (packWord op r m p v) = p := by
  ext i hi
  simp only [padField, packWord, BitVec.getElem_extractLsb', BitVec.getLsbD_append]
  simp [show ¬ 32 + i < 32 by omega, show 32 + i - 32 = i by omega, hi]

@[simp] theorem aField_packWord (op r m p : Byte) (v : BitVec 32) :
    aField (packWord op r m p v) = v.extractLsb' 0 8 := by
  ext i hi
  simp only [aField, packWord, BitVec.getElem_extractLsb', BitVec.getLsbD_append]
  simp [show i < 32 by omega]

@[simp] theorem bField_packWord (op r m p : Byte) (v : BitVec 32) :
    bField (packWord op r m p v) = v.extractLsb' 8 8 := by
  ext i hi
  simp only [bField, packWord, BitVec.getElem_extractLsb', BitVec.getLsbD_append]
  simp [show 8 + i < 32 by omega]

theorem WidthClass.bits_le (W : WidthClass) : W.bits ≤ 32 := by cases W <;> decide

/-- A value that fits its width class is read back whole. -/
theorem valField_packWord {W : WidthClass} {v : BitVec 32} (hv : fitsWidth W v = true) (op r m p : Byte) :
    valField W (packWord op r m p v) = v := by
  have hW := W.bits_le
  have hlt : v.toNat < 2 ^ W.bits := by simpa [fitsWidth] using hv
  apply BitVec.eq_of_toNat_eq
  have hlow : (packWord op r m p v).toNat % 2 ^ 32 = v.toNat := by
    have : (packWord op r m p v).setWidth 32 = v := by
      ext i hi
      simp only [packWord, BitVec.getElem_setWidth, BitVec.getLsbD_append]
      simp [hi]
    rw [← BitVec.toNat_setWidth, this]
  have hmod : (packWord op r m p v).toNat % 2 ^ W.bits = v.toNat := by
    rw [← Nat.mod_mod_of_dvd _ (pow_dvd_pow 2 hW), hlow, Nat.mod_eq_of_lt hlt]
  simp only [valField, BitVec.toNat_setWidth, BitVec.extractLsb'_toNat, Nat.shiftRight_zero]
  rw [hmod, Nat.mod_eq_of_lt v.isLt]

/-- A value field is cut to its width class (R64). -/
theorem valField_fits (W : WidthClass) (w : CommandWord) : fitsWidth W (valField W w) = true := by
  have hW := W.bits_le
  simp only [fitsWidth, valField, decide_eq_true_eq, BitVec.toNat_setWidth]
  exact lt_of_le_of_lt (Nat.mod_le _ _) (BitVec.isLt _)

end Sys2Proof
end

