-- ==== Sys2Proof/Laws/State.lean ====
section
/-! SUPPORT. One lemma per field per update of State, true by unfolding the update once. -/

namespace Sys2Proof.Machine

/-! ### emit -/

@[simp] theorem emit_seg (x : Transaction) (s : State) :
    (emit x s).seg = s.seg := rfl
@[simp] theorem emit_dots (x : Transaction) (s : State) :
    (emit x s).dots = s.dots := rfl
@[simp] theorem emit_cur (x : Transaction) (s : State) :
    (emit x s).cur = s.cur := rfl
@[simp] theorem emit_chip (x : Transaction) (s : State) :
    (emit x s).chip = Memory.apply s.chip x := rfl
@[simp] theorem emit_trace (x : Transaction) (s : State) :
    (emit x s).trace = s.trace ++ [x] := rfl
@[simp] theorem emit_response (x : Transaction) (s : State) :
    (emit x s).response = s.response := rfl
@[simp] theorem emit_pending (x : Transaction) (s : State) :
    (emit x s).pending = s.pending := rfl
@[simp] theorem emit_scans (x : Transaction) (s : State) :
    (emit x s).scans = s.scans := rfl
@[simp] theorem emit_resets (x : Transaction) (s : State) :
    (emit x s).resets = s.resets := rfl
@[simp] theorem emit_params (x : Transaction) (s : State) :
    (emit x s).params = s.params := rfl

/-! ### memWrite -/

@[simp] theorem memWrite_seg (a : RegAddr) (v : Byte) (s : State) :
    (memWrite a v s).seg = s.seg := rfl
@[simp] theorem memWrite_dots (a : RegAddr) (v : Byte) (s : State) :
    (memWrite a v s).dots = s.dots := rfl
@[simp] theorem memWrite_cur (a : RegAddr) (v : Byte) (s : State) :
    (memWrite a v s).cur = s.cur := rfl
@[simp] theorem memWrite_chip (a : RegAddr) (v : Byte) (s : State) :
    (memWrite a v s).chip = Memory.write s.chip a.val v := rfl
@[simp] theorem memWrite_trace (a : RegAddr) (v : Byte) (s : State) :
    (memWrite a v s).trace = s.trace ++ [.wr a v] := rfl
@[simp] theorem memWrite_response (a : RegAddr) (v : Byte) (s : State) :
    (memWrite a v s).response = s.response := rfl
@[simp] theorem memWrite_pending (a : RegAddr) (v : Byte) (s : State) :
    (memWrite a v s).pending = s.pending := rfl
@[simp] theorem memWrite_scans (a : RegAddr) (v : Byte) (s : State) :
    (memWrite a v s).scans = s.scans := rfl
@[simp] theorem memWrite_resets (a : RegAddr) (v : Byte) (s : State) :
    (memWrite a v s).resets = s.resets := rfl
@[simp] theorem memWrite_params (a : RegAddr) (v : Byte) (s : State) :
    (memWrite a v s).params = s.params := rfl

/-! ### chipClear -/

@[simp] theorem chipClear_seg (s : State) :
    (chipClear s).seg = s.seg := rfl
@[simp] theorem chipClear_dots (s : State) :
    (chipClear s).dots = s.dots := rfl
@[simp] theorem chipClear_cur (s : State) :
    (chipClear s).cur = s.cur := rfl
@[simp] theorem chipClear_chip (s : State) :
    (chipClear s).chip = Memory.cleared := rfl
@[simp] theorem chipClear_trace (s : State) :
    (chipClear s).trace = s.trace ++ [.clr] := rfl
@[simp] theorem chipClear_response (s : State) :
    (chipClear s).response = s.response := rfl
@[simp] theorem chipClear_pending (s : State) :
    (chipClear s).pending = s.pending := rfl
@[simp] theorem chipClear_scans (s : State) :
    (chipClear s).scans = s.scans := rfl
@[simp] theorem chipClear_resets (s : State) :
    (chipClear s).resets = s.resets := rfl
@[simp] theorem chipClear_params (s : State) :
    (chipClear s).params = s.params := rfl

/-! ### keyScanRead -/

@[simp] theorem keyScanRead_seg (raw : KeyWord) (s : State) :
    (keyScanRead raw s).seg = s.seg := rfl
@[simp] theorem keyScanRead_dots (raw : KeyWord) (s : State) :
    (keyScanRead raw s).dots = s.dots := rfl
@[simp] theorem keyScanRead_cur (raw : KeyWord) (s : State) :
    (keyScanRead raw s).cur = s.cur := rfl
@[simp] theorem keyScanRead_chip (raw : KeyWord) (s : State) :
    (keyScanRead raw s).chip = s.chip := rfl
@[simp] theorem keyScanRead_trace (raw : KeyWord) (s : State) :
    (keyScanRead raw s).trace = s.trace ++ [.rdk raw] := rfl
@[simp] theorem keyScanRead_response (raw : KeyWord) (s : State) :
    (keyScanRead raw s).response = s.response := rfl
@[simp] theorem keyScanRead_pending (raw : KeyWord) (s : State) :
    (keyScanRead raw s).pending = s.pending := rfl
@[simp] theorem keyScanRead_scans (raw : KeyWord) (s : State) :
    (keyScanRead raw s).scans = s.scans + 1 := rfl
@[simp] theorem keyScanRead_resets (raw : KeyWord) (s : State) :
    (keyScanRead raw s).resets = s.resets := rfl
@[simp] theorem keyScanRead_params (raw : KeyWord) (s : State) :
    (keyScanRead raw s).params = s.params := rfl

/-! ### respond -/

@[simp] theorem respond_seg (v : Byte) (s : State) :
    (respond v s).seg = s.seg := rfl
@[simp] theorem respond_dots (v : Byte) (s : State) :
    (respond v s).dots = s.dots := rfl
@[simp] theorem respond_cur (v : Byte) (s : State) :
    (respond v s).cur = s.cur := rfl
@[simp] theorem respond_chip (v : Byte) (s : State) :
    (respond v s).chip = s.chip := rfl
@[simp] theorem respond_trace (v : Byte) (s : State) :
    (respond v s).trace = s.trace := rfl
@[simp] theorem respond_response (v : Byte) (s : State) :
    (respond v s).response = some v := rfl
@[simp] theorem respond_pending (v : Byte) (s : State) :
    (respond v s).pending = s.pending := rfl
@[simp] theorem respond_scans (v : Byte) (s : State) :
    (respond v s).scans = s.scans := rfl
@[simp] theorem respond_resets (v : Byte) (s : State) :
    (respond v s).resets = s.resets := rfl
@[simp] theorem respond_params (v : Byte) (s : State) :
    (respond v s).params = s.params := rfl

/-! ### beginCommand -/

@[simp] theorem beginCommand_seg (s : State) :
    (beginCommand s).seg = s.seg := rfl
@[simp] theorem beginCommand_dots (s : State) :
    (beginCommand s).dots = s.dots := rfl
@[simp] theorem beginCommand_cur (s : State) :
    (beginCommand s).cur = s.cur := rfl
@[simp] theorem beginCommand_chip (s : State) :
    (beginCommand s).chip = s.chip := rfl
@[simp] theorem beginCommand_trace (s : State) :
    (beginCommand s).trace = [] := rfl
@[simp] theorem beginCommand_response (s : State) :
    (beginCommand s).response = none := rfl
@[simp] theorem beginCommand_pending (s : State) :
    (beginCommand s).pending = s.pending := rfl
@[simp] theorem beginCommand_scans (s : State) :
    (beginCommand s).scans = s.scans := rfl
@[simp] theorem beginCommand_resets (s : State) :
    (beginCommand s).resets = s.resets := rfl
@[simp] theorem beginCommand_params (s : State) :
    (beginCommand s).params = s.params := rfl

/-! ### render -/

@[simp] theorem render_seg (p : Position) (s : State) :
    (render p s).seg = s.seg := rfl
@[simp] theorem render_dots (p : Position) (s : State) :
    (render p s).dots = s.dots := rfl
@[simp] theorem render_cur (p : Position) (s : State) :
    (render p s).cur = s.cur := rfl
@[simp] theorem render_chip (p : Position) (s : State) :
    (render p s).chip = Memory.write s.chip (digitAddr p).val (combined s p) := rfl
@[simp] theorem render_trace (p : Position) (s : State) :
    (render p s).trace = s.trace ++ [.wr (digitAddr p) (combined s p)] := rfl
@[simp] theorem render_response (p : Position) (s : State) :
    (render p s).response = s.response := rfl
@[simp] theorem render_pending (p : Position) (s : State) :
    (render p s).pending = s.pending := rfl
@[simp] theorem render_scans (p : Position) (s : State) :
    (render p s).scans = s.scans := rfl
@[simp] theorem render_resets (p : Position) (s : State) :
    (render p s).resets = s.resets := rfl
@[simp] theorem render_params (p : Position) (s : State) :
    (render p s).params = s.params := rfl

/-! ### hardReset -/

@[simp] theorem hardReset_seg (s : State) :
    (hardReset s).seg = Vector.replicate 8 0 := rfl
@[simp] theorem hardReset_dots (s : State) :
    (hardReset s).dots = 0 := rfl
@[simp] theorem hardReset_cur (s : State) :
    (hardReset s).cur = 0 := rfl
@[simp] theorem hardReset_chip (s : State) :
    (hardReset s).chip = [] := rfl
@[simp] theorem hardReset_trace (s : State) :
    (hardReset s).trace = [] := rfl
@[simp] theorem hardReset_response (s : State) :
    (hardReset s).response = none := rfl
@[simp] theorem hardReset_pending (s : State) :
    (hardReset s).pending = s.pending := rfl
@[simp] theorem hardReset_scans (s : State) :
    (hardReset s).scans = s.scans := rfl
@[simp] theorem hardReset_resets (s : State) :
    (hardReset s).resets = s.resets + 1 := rfl
@[simp] theorem hardReset_params (s : State) :
    (hardReset s).params = s.params := rfl

/-! ### abortedBy -/

@[simp] theorem abortedBy_seg (done : Nat) (s : State) :
    (abortedBy done s).seg = Vector.replicate 8 0 := rfl
@[simp] theorem abortedBy_dots (done : Nat) (s : State) :
    (abortedBy done s).dots = 0 := rfl
@[simp] theorem abortedBy_cur (done : Nat) (s : State) :
    (abortedBy done s).cur = 0 := rfl
@[simp] theorem abortedBy_chip (done : Nat) (s : State) :
    (abortedBy done s).chip = [] := rfl
@[simp] theorem abortedBy_trace (done : Nat) (s : State) :
    (abortedBy done s).trace = s.trace.take done := rfl
@[simp] theorem abortedBy_response (done : Nat) (s : State) :
    (abortedBy done s).response = none := rfl
@[simp] theorem abortedBy_pending (done : Nat) (s : State) :
    (abortedBy done s).pending = s.pending := rfl
@[simp] theorem abortedBy_scans (done : Nat) (s : State) :
    (abortedBy done s).scans = s.scans := rfl
@[simp] theorem abortedBy_resets (done : Nat) (s : State) :
    (abortedBy done s).resets = s.resets + 1 := rfl
@[simp] theorem abortedBy_params (done : Nat) (s : State) :
    (abortedBy done s).params = s.params := rfl

/-! ### presentWord -/

@[simp] theorem presentWord_seg (cmd : CommandWord) (s : State) :
    (presentWord cmd s).seg = s.seg := rfl
@[simp] theorem presentWord_dots (cmd : CommandWord) (s : State) :
    (presentWord cmd s).dots = s.dots := rfl
@[simp] theorem presentWord_cur (cmd : CommandWord) (s : State) :
    (presentWord cmd s).cur = s.cur := rfl
@[simp] theorem presentWord_chip (cmd : CommandWord) (s : State) :
    (presentWord cmd s).chip = s.chip := rfl
@[simp] theorem presentWord_trace (cmd : CommandWord) (s : State) :
    (presentWord cmd s).trace = s.trace := rfl
@[simp] theorem presentWord_response (cmd : CommandWord) (s : State) :
    (presentWord cmd s).response = s.response := rfl
@[simp] theorem presentWord_pending (cmd : CommandWord) (s : State) :
    (presentWord cmd s).pending = .command cmd :: s.pending := rfl
@[simp] theorem presentWord_scans (cmd : CommandWord) (s : State) :
    (presentWord cmd s).scans = s.scans := rfl
@[simp] theorem presentWord_resets (cmd : CommandWord) (s : State) :
    (presentWord cmd s).resets = s.resets := rfl
@[simp] theorem presentWord_params (cmd : CommandWord) (s : State) :
    (presentWord cmd s).params = s.params := rfl

end Sys2Proof.Machine
end

