-- ==== Sys2Proof/Laws/Memory.lean ====
section
/-! SUPPORT. The laws of the chip image: read after write, the cleared image, and the canonical form. -/

namespace Sys2Proof.Machine

@[simp] theorem Memory.read_nil (a : Nat) : Memory.read [] a = none := rfl

theorem Memory.read_write (m : List Host.Cell) (a : Nat) (v : Byte) (b : Nat) :
    Memory.read (Memory.write m a v) b = if b = a then some v else Memory.read m b := by
  induction m with
  | nil => simp [Memory.write, Memory.read]
  | cons c rest ih =>
    obtain ⟨k, u⟩ := c
    by_cases h1 : a < k
    · simp [Memory.write, Memory.read, h1]
    · by_cases h2 : a = k
      · subst h2
        by_cases hb : b = a <;> simp [Memory.write, Memory.read, hb]
      · by_cases hb : b = k
        · have : b ≠ a := by omega
          simp [Memory.write, Memory.read, h1, h2, hb, Ne.symm h2]
        · simp [Memory.write, Memory.read, h1, h2, hb, ih]

@[simp] theorem Memory.read_write_same (m : List Host.Cell) (a : Nat) (v : Byte) :
    Memory.read (Memory.write m a v) a = some v := by
  simp [Memory.read_write]

theorem Memory.read_write_other (m : List Host.Cell) {a b : Nat} (v : Byte) (h : b ≠ a) :
    Memory.read (Memory.write m a v) b = Memory.read m b := by
  simp [Memory.read_write, h]

theorem Memory.read_cleared (a : Nat) : Memory.read Memory.cleared a = if a < 16 then some 0 else none := by
  by_cases h : a < 16
  · interval_cases a <;> rfl
  · have : ∀ l : List Nat, a ∉ l → Memory.read (l.map (fun a => (a, 0x00#8))) a = none := by
      intro l hl
      induction l with
      | nil => rfl
      | cons x xs ih =>
        simp only [List.mem_cons, not_or] at hl
        simp only [List.map_cons, Memory.read, hl.1, if_false]
        exact ih hl.2
    simp only [h, if_false]
    exact this _ (by simp; omega)

/-! ### The canonical form -/

theorem Memory.risingFrom_mono {m : List Host.Cell} {lo hi : Nat} (h : lo ≤ hi)
    (hm : Memory.risingFrom hi m = true) : Memory.risingFrom lo m = true := by
  cases m with
  | nil => rfl
  | cons c rest =>
    simp only [Memory.risingFrom, Bool.and_eq_true, decide_eq_true_eq] at hm ⊢
    exact ⟨⟨by omega, hm.1.2⟩, hm.2⟩

theorem Memory.risingFrom_write {m : List Host.Cell} {lo a : Nat} (v : Byte) (hlo : lo ≤ a) (ha : a < 16)
    (hm : Memory.risingFrom lo m = true) : Memory.risingFrom lo (Memory.write m a v) = true := by
  induction m generalizing lo with
  | nil => simp [Memory.write, Memory.risingFrom, hlo, ha]
  | cons c rest ih =>
    obtain ⟨k, u⟩ := c
    simp only [Memory.risingFrom, Bool.and_eq_true, decide_eq_true_eq] at hm
    by_cases h1 : a < k
    · simp only [Memory.write, h1, if_true, Memory.risingFrom, Bool.and_eq_true, decide_eq_true_eq]
      exact ⟨⟨hlo, ha⟩, ⟨by omega, hm.1.2⟩, hm.2⟩
    · by_cases h2 : a = k
      · subst h2
        simp [Memory.write, Memory.risingFrom, hlo, ha, hm.2]
      · simp only [Memory.write, h1, h2, if_false, Memory.risingFrom, Bool.and_eq_true, decide_eq_true_eq]
        exact ⟨⟨hm.1.1, hm.1.2⟩, ih (by omega) hm.2⟩

theorem Memory.wf_write {m : List Host.Cell} (a : RegAddr) (v : Byte) (hm : Memory.wf m = true) :
    Memory.wf (Memory.write m a.val v) = true :=
  Memory.risingFrom_write v (Nat.zero_le _) a.isLt hm

theorem Memory.wf_cleared : Memory.wf Memory.cleared = true := by decide

/-- Every transaction keeps the canonical form. -/
theorem Memory.wf_apply {m : List Host.Cell} (x : Transaction) (hm : Memory.wf m = true) :
    Memory.wf (Memory.apply m x) = true := by
  cases x with
  | wr a v => exact Memory.wf_write a v hm
  | clr => exact Memory.wf_cleared
  | rdk raw => exact hm

end Sys2Proof.Machine
end

