-- ==== Sys2Proof/Laws/Operands.lean ====
section
/-! SUPPORT. The laws of the pure functions: bits of a byte, the chip addresses, glyphs and the digit count. -/

namespace Sys2Proof.Machine

/-! ### Bits -/

theorem bitOf_getLsbD (b : Byte) (i j : Nat) :
    (bitOf b i).getLsbD j = (decide (j = 0) && b.getLsbD i) := by
  cases j with
  | zero => simp [bitOf]
  | succ j => simp [bitOf]

/-- The dot of a position stands in bit 7 and nowhere else. -/
theorem dot_getLsbD (b : Byte) (i j : Nat) :
    (bitOf b i <<< 7).getLsbD j = (decide (j = 7) && b.getLsbD i) := by
  by_cases hj : j < 8
  · simp only [BitVec.getLsbD_shiftLeft, hj, decide_true, Bool.true_and, bitOf_getLsbD]
    by_cases h7 : j = 7
    · subst h7; simp
    · have : j < 7 := by omega
      simp [this, h7]
  · have h7 : j ≠ 7 := by omega
    simp [BitVec.getLsbD_shiftLeft, hj, h7]

/-- Bit `i` of the reversed byte is bit `7 - i` of the byte (R90). -/
theorem swapBits_getLsbD (b : Byte) {i : Nat} (hi : i < 8) : (swapBits b).getLsbD i = b.getLsbD (7 - i) := by
  simp only [swapBits, List.foldl_cons, List.foldl_nil, BitVec.getLsbD_or, BitVec.getLsbD_shiftLeft, bitOf_getLsbD, hi]
  interval_cases i <;> simp

theorem keyBit_getLsbD (raw : KeyWord) (i j : Nat) :
    (keyBit raw i).getLsbD j = (decide (j = 0) && raw.getLsbD i) := by
  cases j with
  | zero => simp [keyBit]
  | succ j => simp [keyBit]

theorem packKeys_getLsbD (raw : KeyWord) (k : Fin 4) :
    (packKeys raw).getLsbD k.val = raw.getLsbD (8 * k.val) ∧
      (packKeys raw).getLsbD (k.val + 4) = raw.getLsbD (8 * k.val + 4) := by
  simp only [packKeys, List.foldl_cons, List.foldl_nil, BitVec.getLsbD_or, BitVec.getLsbD_shiftLeft, keyBit_getLsbD]
  fin_cases k <;> simp

/-- The table of R154: which bit of the key-scan word each bit of the result is. -/
theorem decodeKeys_getLsbD (raw : KeyWord) {j : Nat} (hj : j < 4) :
    (decodeKeys raw).getLsbD j = raw.getLsbD (28 - 8 * j) ∧
      (decodeKeys raw).getLsbD (7 - j) = raw.getLsbD (8 * j) := by
  simp only [decodeKeys]
  rw [swapBits_getLsbD _ (by omega), swapBits_getLsbD _ (by omega), show 7 - (7 - j) = j by omega]
  have h1 := (packKeys_getLsbD raw ⟨3 - j, by omega⟩).2
  have h2 := (packKeys_getLsbD raw ⟨j, hj⟩).1
  simp only at h1 h2
  rw [← h2, show 28 - 8 * j = 8 * (3 - j) + 4 by omega, ← h1, show 3 - j + 4 = 7 - j by omega]
  exact ⟨rfl, rfl⟩

/-- A byte with bit 7 clear is kept whole by the store. -/
theorem masked_eq {g : Byte} (h : g.getLsbD 7 = false) : g &&& 0x7F#8 = g := by
  have key : ∀ g : Byte, g.getLsbD 7 = false → g &&& 0x7F#8 = g := by decide
  exact key g h

theorem defaultParams_admissible : defaultParams.Admissible where
  entry0 := rfl
  entry15 := rfl
  tabClean := by decide
  hexShapes := by decide
  offZero := rfl
  minusClean := rfl
  degreeClean := rfl
  celsiusClean := rfl
  colors := by decide
  cap := .inr rfl

theorem segOff_clean {P : Params} (hP : P.Admissible) : P.segOff &&& 0x7F#8 = P.segOff := by rw [hP.offZero]; rfl

theorem segMinus_clean {P : Params} (hP : P.Admissible) : P.segMinus &&& 0x7F#8 = P.segMinus := masked_eq hP.minusClean

theorem glyph_clean {P : Params} (hP : P.Admissible) (d : Nat) : glyph P d &&& 0x7F#8 = glyph P d := by
  unfold glyph
  split
  · exact masked_eq (hP.tabClean ⟨d, ‹_›⟩)
  · exact segOff_clean hP

/-- The glyphs of the digit values 10 to 15 tell the value (R82). -/
theorem glyph_hex_inj {P : Params} (hP : P.Admissible) {d e : Nat} (hd : 10 ≤ d) (hd' : d ≤ 15) (he : 10 ≤ e) (he' : e ≤ 15)
    (h : glyph P d = glyph P e) : d = e := by
  rw [glyph, glyph, dif_pos (by omega), dif_pos (by omega)] at h
  exact congrArg Fin.val (hP.hexShapes ⟨d, by omega⟩ ⟨e, by omega⟩ hd he h)

theorem positionGlyph_clean {P : Params} (hP : P.Admissible) (v r pad i : Nat) :
    positionGlyph P v r pad i &&& 0x7F#8 = positionGlyph P v r pad i := by
  unfold positionGlyph
  split
  · exact segOff_clean hP
  · exact glyph_clean hP _

/-- The off color is none but a legal color byte. -/
theorem colorOff_legal {P : Params} (hP : P.Admissible) : legalColor (colorByte P.colorOff) = true := by
  have key : ∀ c : BitVec 2, c ≠ 0b11 → legalColor (colorByte c) = true := by decide
  exact key _ ((hP.colors _).2 (.inl rfl))

theorem masked_bit7 (g : Byte) : (g &&& 0x7F#8).getLsbD 7 = false := by simp

/-! ### Addresses -/

theorem digitAddr_val (p : Position) : (digitAddr p).val = 14 - 2 * p.val := by
  simp only [digitAddr, swapPos]
  omega

theorem ledAddr_val (l : LedIndex) : (ledAddr l).val = 15 - 2 * l.val := by
  simp only [ledAddr, swapLed]
  omega

theorem digitAddr_inj {p q : Position} : (digitAddr p).val = (digitAddr q).val ↔ p = q := by
  simp only [digitAddr_val]
  constructor
  · intro h; ext; omega
  · rintro rfl; rfl

theorem ledAddr_inj {p q : LedIndex} : (ledAddr p).val = (ledAddr q).val ↔ p = q := by
  simp only [ledAddr_val]
  constructor
  · intro h; ext; omega
  · rintro rfl; rfl

theorem digitAddr_ne_ledAddr (p : Position) (l : LedIndex) : (digitAddr p).val ≠ (ledAddr l).val := by
  simp only [digitAddr_val, ledAddr_val]
  omega

theorem mem_ascending (p : Fin 8) : p ∈ ascending := by
  revert p; decide

/-! ### The digit count -/

theorem countDigits_le_iff {r : Nat} (hr : 2 ≤ r) :
    ∀ {left v q : Nat}, q < left → (countDigits r left v ≤ q ↔ v < r ^ q)
  | left + 1, v, q, hq => by
    by_cases hv : v = 0
    · subst hv
      simp [countDigits]
      positivity
    · cases q with
      | zero => simp [countDigits, hv]
      | succ q =>
        have ih := countDigits_le_iff hr (left := left) (v := v / r) (q := q) (by omega)
        simp only [countDigits, hv, if_false]
        rw [show 1 + countDigits r left (v / r) ≤ q + 1 ↔ countDigits r left (v / r) ≤ q by omega, ih,
          Nat.div_lt_iff_lt_mul (by omega), pow_succ]

/-- A value has at most `q` digits exactly when it is below `r ^ q`, for every `q` below the cap (R135). -/
theorem numDigits_le_iff {cap v r q : Nat} (hr : 2 ≤ r) (hq : 1 ≤ q) (hcap : q < cap) :
    numDigits cap v r ≤ q ↔ v < r ^ q := by
  obtain ⟨q, rfl⟩ : ∃ k, q = k + 1 := ⟨q - 1, by omega⟩
  have h := countDigits_le_iff hr (left := cap - 1) (v := v / r) (q := q) (by omega)
  rw [show numDigits cap v r ≤ q + 1 ↔ countDigits r (cap - 1) (v / r) ≤ q by unfold numDigits; omega, h,
    Nat.div_lt_iff_lt_mul (by omega), pow_succ]

theorem numDigits_pos (cap v r : Nat) : 1 ≤ numDigits cap v r := by unfold numDigits; omega

theorem countDigits_le (r : Nat) : ∀ left v : Nat, countDigits r left v ≤ left
  | 0, _ => Nat.le_refl _
  | left + 1, v => by
    have := countDigits_le r left (v / r)
    unfold countDigits
    split <;> omega

/-- The count saturates at the cap (R120). -/
theorem numDigits_le_cap {cap : Nat} (hcap : 1 ≤ cap) (v r : Nat) : numDigits cap v r ≤ cap := by
  have := countDigits_le r (cap - 1) (v / r)
  unfold numDigits
  omega

/-- Where the overflow check passed for a count below the cap, the counted digits hold the whole value. -/
theorem lt_pow_of_fits {cap v r : Nat} (hr : 2 ≤ r) (h : numDigits cap v r < cap) : v < r ^ numDigits cap v r :=
  (numDigits_le_iff hr (numDigits_pos cap v r) h).1 le_rfl

end Sys2Proof.Machine
end

