-- ==== Sys2Proof/Laws/Display.lean ====
section
/-! SUPPORT. What rendering and the store of a segment byte can do, said once: every later proof cites these lemmas. -/

namespace Sys2Proof.Machine

@[simp] theorem combined_beginCommand (s : State) (p : Position) : combined (beginCommand s) p = combined s p := rfl

/-! ### `SetSeg` -/

theorem setSeg_out {pos : Nat} (h : 8 ≤ pos) (g : Byte) (s : State) : setSeg pos g s = s := by
  simp [setSeg, Nat.not_lt.2 h]

/-- `SetSeg` at a position of the display is one store followed by one render. -/
theorem setSeg_in {pos : Nat} (h : pos < 8) (g : Byte) (s : State) :
    setSeg pos g s = render ⟨pos, h⟩ { s with seg := s.seg.set pos (g &&& 0x7F#8) } := by
  simp [setSeg, h]

/-- Whatever is kept by every store of a byte and by every render is kept by `SetSeg`. -/
theorem setSeg_cases {P : State → Prop} (pos : Nat) (g : Byte) (s : State) (hout : 8 ≤ pos → P s)
    (hin : ∀ h : pos < 8, P (render ⟨pos, h⟩ { s with seg := s.seg.set pos (g &&& 0x7F#8) })) : P (setSeg pos g s) := by
  by_cases h : pos < 8
  · rw [setSeg_in h]; exact hin h
  · rw [setSeg_out (by omega)]; exact hout (by omega)

@[simp] theorem setSeg_dots (pos : Nat) (g : Byte) (s : State) : (setSeg pos g s).dots = s.dots :=
  setSeg_cases (P := fun t => t.dots = s.dots) pos g s (fun _ => rfl) (fun _ => rfl)
@[simp] theorem setSeg_cur (pos : Nat) (g : Byte) (s : State) : (setSeg pos g s).cur = s.cur :=
  setSeg_cases (P := fun t => t.cur = s.cur) pos g s (fun _ => rfl) (fun _ => rfl)
@[simp] theorem setSeg_response (pos : Nat) (g : Byte) (s : State) : (setSeg pos g s).response = s.response :=
  setSeg_cases (P := fun t => t.response = s.response) pos g s (fun _ => rfl) (fun _ => rfl)
@[simp] theorem setSeg_pending (pos : Nat) (g : Byte) (s : State) : (setSeg pos g s).pending = s.pending :=
  setSeg_cases (P := fun t => t.pending = s.pending) pos g s (fun _ => rfl) (fun _ => rfl)
@[simp] theorem setSeg_scans (pos : Nat) (g : Byte) (s : State) : (setSeg pos g s).scans = s.scans :=
  setSeg_cases (P := fun t => t.scans = s.scans) pos g s (fun _ => rfl) (fun _ => rfl)
@[simp] theorem setSeg_params (pos : Nat) (g : Byte) (s : State) : (setSeg pos g s).params = s.params :=
  setSeg_cases (P := fun t => t.params = s.params) pos g s (fun _ => rfl) (fun _ => rfl)
@[simp] theorem setSeg_resets (pos : Nat) (g : Byte) (s : State) : (setSeg pos g s).resets = s.resets :=
  setSeg_cases (P := fun t => t.resets = s.resets) pos g s (fun _ => rfl) (fun _ => rfl)

/-- The segment register of a position after `SetSeg`. -/
theorem setSeg_seg (pos : Nat) (g : Byte) (s : State) (p : Position) :
    (setSeg pos g s).seg[p.val] = if p.val = pos then g &&& 0x7F#8 else s.seg[p.val] := by
  by_cases h : pos < 8
  · rw [setSeg_in h, render_seg]
    simp only [Vector.getElem_set, eq_comm]
  · rw [setSeg_out (by omega)]
    have : p.val ≠ pos := by omega
    simp [this]

/-- The transactions of `SetSeg`. -/
theorem setSeg_trace (pos : Nat) (g : Byte) (s : State) :
    (setSeg pos g s).trace = s.trace ++
      (if h : pos < 8 then [.wr (digitAddr ⟨pos, h⟩) (withDot s ⟨pos, h⟩ (g &&& 0x7F#8))] else []) := by
  by_cases h : pos < 8
  · rw [setSeg_in h, render_trace]
    simp [h, combined, withDot]
  · rw [setSeg_out (by omega)]
    simp [h]

/-- The chip image after `SetSeg`, by address. -/
theorem setSeg_read (pos : Nat) (g : Byte) (s : State) (a : Nat) :
    Memory.read (setSeg pos g s).chip a =
      if h : pos < 8 then
        (if a = (digitAddr ⟨pos, h⟩).val then some (withDot s ⟨pos, h⟩ (g &&& 0x7F#8)) else Memory.read s.chip a)
      else Memory.read s.chip a := by
  by_cases h : pos < 8
  · rw [setSeg_in h, render_chip, Memory.read_write]
    simp [h, combined, withDot]
  · rw [setSeg_out (by omega)]
    simp [h]

/-! ### The eight renders -/

/-- Renders of a list of positions change nothing but the chip image and the trace. -/
theorem renderList_frame (ps : List Position) (s : State) :
    let t := ps.foldl (fun s p => render p s) s
    t.seg = s.seg ∧ t.dots = s.dots ∧ t.cur = s.cur ∧ t.response = s.response ∧ t.pending = s.pending ∧
      t.scans = s.scans ∧ t.resets = s.resets ∧ t.params = s.params ∧
      t.trace = s.trace ++ ps.map (fun p => .wr (digitAddr p) (combined s p)) := by
  induction ps generalizing s with
  | nil => simp
  | cons p ps ih =>
    have h := ih (render p s)
    simp only [render_seg, render_dots, render_cur, render_response, render_pending, render_scans, render_resets,
      render_params, render_trace] at h
    refine ⟨h.1, h.2.1, h.2.2.1, h.2.2.2.1, h.2.2.2.2.1, h.2.2.2.2.2.1, h.2.2.2.2.2.2.1, h.2.2.2.2.2.2.2.1, ?_⟩
    simp only [List.foldl_cons, List.map_cons]
    rw [h.2.2.2.2.2.2.2.2]
    simp [combined]

theorem renderList_read (ps : List Position) (s : State) (a : Nat) :
    Memory.read (ps.foldl (fun s p => render p s) s).chip a =
      match ps.find? (fun p => decide ((digitAddr p).val = a)) with
      | some p => some (combined s p)
      | none => Memory.read s.chip a := by
  induction ps generalizing s with
  | nil => simp
  | cons p ps ih =>
    rw [List.foldl_cons, ih, render_chip, Memory.read_write]
    have hc : ∀ q, combined (render p s) q = combined s q := fun _ => rfl
    by_cases h : (digitAddr p).val = a
    · rw [List.find?_cons_of_pos (by simpa using h)]
      cases hf : ps.find? (fun p => decide ((digitAddr p).val = a)) with
      | none => simp [h]
      | some q =>
        have := List.find?_some hf
        simp only [decide_eq_true_eq] at this
        have : q = p := digitAddr_inj.1 (by omega)
        simp [hc, this]
    · rw [List.find?_cons_of_neg (by simpa using h)]
      cases ps.find? (fun p => decide ((digitAddr p).val = a)) with
      | none => simp [Ne.symm h]
      | some q => simp [hc]

@[simp] theorem renderAll_seg (s : State) : (renderAll s).seg = s.seg := (renderList_frame ascending s).1
@[simp] theorem renderAll_dots (s : State) : (renderAll s).dots = s.dots := (renderList_frame ascending s).2.1
@[simp] theorem renderAll_cur (s : State) : (renderAll s).cur = s.cur := (renderList_frame ascending s).2.2.1
@[simp] theorem renderAll_response (s : State) : (renderAll s).response = s.response :=
  (renderList_frame ascending s).2.2.2.1
@[simp] theorem renderAll_pending (s : State) : (renderAll s).pending = s.pending :=
  (renderList_frame ascending s).2.2.2.2.1
@[simp] theorem renderAll_scans (s : State) : (renderAll s).scans = s.scans :=
  (renderList_frame ascending s).2.2.2.2.2.1
@[simp] theorem renderAll_resets (s : State) : (renderAll s).resets = s.resets :=
  (renderList_frame ascending s).2.2.2.2.2.2.1
@[simp] theorem renderAll_params (s : State) : (renderAll s).params = s.params :=
  (renderList_frame ascending s).2.2.2.2.2.2.2.1
theorem renderAll_trace (s : State) :
    (renderAll s).trace = s.trace ++ ascending.map (fun p => .wr (digitAddr p) (combined s p)) :=
  (renderList_frame ascending s).2.2.2.2.2.2.2.2

/-- After the eight renders every digit register holds the combined byte of its position. -/
theorem renderAll_read_digit (s : State) (p : Position) :
    Memory.read (renderAll s).chip (digitAddr p).val = some (combined s p) := by
  unfold renderAll
  rw [renderList_read]
  cases hf : ascending.find? (fun q => decide ((digitAddr q).val = (digitAddr p).val)) with
  | none =>
    have := List.find?_eq_none.1 hf p (mem_ascending p)
    simp at this
  | some q =>
    have := List.find?_some hf
    simp only [decide_eq_true_eq] at this
    rw [digitAddr_inj.1 this]

/-- The eight renders leave every address that is no digit register alone. -/
theorem renderAll_read_other (s : State) {a : Nat} (h : ∀ p, a ≠ (digitAddr p).val) :
    Memory.read (renderAll s).chip a = Memory.read s.chip a := by
  unfold renderAll
  rw [renderList_read, List.find?_eq_none.2]
  intro p _
  simpa using (h p).symm

/-! ### LED writes -/

theorem ledList_frame (ls : List LedIndex) (mask v : Byte) (s : State) :
    let t := ls.foldl (fun s i => if mask.getLsbD i.val then memWrite (ledAddr i) v s else s) s
    t.seg = s.seg ∧ t.dots = s.dots ∧ t.cur = s.cur ∧ t.response = s.response ∧ t.pending = s.pending ∧
      t.scans = s.scans ∧ t.resets = s.resets ∧ t.params = s.params ∧
      t.trace = s.trace ++ (ls.filter (fun i => mask.getLsbD i.val)).map (fun i => .wr (ledAddr i) v) := by
  induction ls generalizing s with
  | nil => simp
  | cons l ls ih =>
    by_cases h : mask.getLsbD l.val = true
    · simpa only [List.foldl_cons, h, if_true, List.filter_cons, List.map_cons, memWrite_seg, memWrite_dots, memWrite_cur,
        memWrite_response, memWrite_pending, memWrite_scans, memWrite_resets, memWrite_params, memWrite_trace, List.append_assoc,
        List.singleton_append] using ih (memWrite (ledAddr l) v s)
    · simpa only [List.foldl_cons, h, if_false, List.filter_cons, Bool.false_eq_true] using ih s

theorem ledList_read (ls : List LedIndex) (mask v : Byte) (s : State) (a : Nat) :
    Memory.read (ls.foldl (fun s i => if mask.getLsbD i.val then memWrite (ledAddr i) v s else s) s).chip a =
      if ∃ l ∈ ls, mask.getLsbD l.val ∧ (ledAddr l).val = a then some v else Memory.read s.chip a := by
  induction ls generalizing s with
  | nil => simp
  | cons l ls ih =>
    by_cases h : mask.getLsbD l.val = true
    · rw [List.foldl_cons, ih]
      simp only [h, if_true, memWrite_chip, Memory.read_write, List.mem_cons, exists_eq_or_imp, true_and]
      by_cases ha : a = (ledAddr l).val
      · simp [ha]
      · simp only [ha, if_false, Ne.symm ha, false_or]
    · rw [List.foldl_cons, ih]
      simp only [h, if_false, List.mem_cons, exists_eq_or_imp, false_and, false_or, Bool.false_eq_true]

theorem writeLeds_frame (mask v : Byte) (s : State) :
    (writeLeds mask v s).seg = s.seg ∧ (writeLeds mask v s).dots = s.dots ∧ (writeLeds mask v s).cur = s.cur ∧
      (writeLeds mask v s).response = s.response ∧ (writeLeds mask v s).pending = s.pending ∧
      (writeLeds mask v s).scans = s.scans ∧ (writeLeds mask v s).resets = s.resets ∧ (writeLeds mask v s).params = s.params ∧
      (writeLeds mask v s).trace =
        s.trace ++ (ascending.filter (fun i => mask.getLsbD i.val)).map (fun i => .wr (ledAddr i) v) :=
  ledList_frame ascending mask v s

@[simp] theorem writeLeds_seg (mask v : Byte) (s : State) : (writeLeds mask v s).seg = s.seg :=
  (writeLeds_frame mask v s).1
@[simp] theorem writeLeds_dots (mask v : Byte) (s : State) : (writeLeds mask v s).dots = s.dots :=
  (writeLeds_frame mask v s).2.1
@[simp] theorem writeLeds_cur (mask v : Byte) (s : State) : (writeLeds mask v s).cur = s.cur :=
  (writeLeds_frame mask v s).2.2.1
@[simp] theorem writeLeds_response (mask v : Byte) (s : State) : (writeLeds mask v s).response = s.response :=
  (writeLeds_frame mask v s).2.2.2.1
@[simp] theorem writeLeds_pending (mask v : Byte) (s : State) : (writeLeds mask v s).pending = s.pending :=
  (writeLeds_frame mask v s).2.2.2.2.1
@[simp] theorem writeLeds_scans (mask v : Byte) (s : State) : (writeLeds mask v s).scans = s.scans :=
  (writeLeds_frame mask v s).2.2.2.2.2.1
@[simp] theorem writeLeds_resets (mask v : Byte) (s : State) : (writeLeds mask v s).resets = s.resets :=
  (writeLeds_frame mask v s).2.2.2.2.2.2.1
@[simp] theorem writeLeds_params (mask v : Byte) (s : State) : (writeLeds mask v s).params = s.params :=
  (writeLeds_frame mask v s).2.2.2.2.2.2.2.1
theorem writeLeds_trace (mask v : Byte) (s : State) :
    (writeLeds mask v s).trace =
      s.trace ++ (ascending.filter (fun i => mask.getLsbD i.val)).map (fun i => .wr (ledAddr i) v) :=
  (writeLeds_frame mask v s).2.2.2.2.2.2.2.2

/-- The chip image after the LED loop, by address. -/
theorem writeLeds_read (mask v : Byte) (s : State) (a : Nat) :
    Memory.read (writeLeds mask v s).chip a =
      if ∃ l : LedIndex, mask.getLsbD l.val ∧ (ledAddr l).val = a then some v else Memory.read s.chip a := by
  unfold writeLeds
  rw [ledList_read]
  simp [mem_ascending]

end Sys2Proof.Machine
end

