-- ==== Sys2Proof/Laws/Print.lean ====
section
/-! SUPPORT. What the loops of the formatter can do. Both loops are one loop that stores a glyph at each position of the
budget; its effect on every register, on the chip image and on the trace is said once. -/

namespace Sys2Proof.Machine

/-- The common form of the two loops: glyph `g i` to position `CUR + i`, for `left` indices from `i` on. -/
def paintFrom (g : Nat → Byte) : (left i : Nat) → State → State
  | 0, _, s => s
  | left + 1, i, s => paintFrom g left (i + 1) (setSeg (s.cur.toNat + i) (g i) s)

theorem overflowRunFrom_eq_paint (left i : Nat) (s : State) :
    overflowRunFrom left i s = paintFrom (fun _ => s.params.segMinus) left i s := by
  induction left generalizing i s with
  | zero => rfl
  | succ left ih => simp only [overflowRunFrom, paintFrom, ih, setSeg_params]

theorem digitLoopFrom_eq_paint (v r pad left i : Nat) (s : State) :
    digitLoopFrom r pad left i (v / r ^ i) s = paintFrom (positionGlyph s.params v r pad) left i s := by
  induction left generalizing i s with
  | zero => rfl
  | succ left ih =>
    have hdiv : v / r ^ i / r = v / r ^ (i + 1) := by rw [Nat.div_div_eq_div_mul, pow_succ]
    have hset : (if v / r ^ i = 0 ∧ i ≥ pad then setSeg (s.cur.toNat + i) s.params.segOff s
        else setDig (s.cur.toNat + i) (v / r ^ i % r) s) = setSeg (s.cur.toNat + i) (positionGlyph s.params v r pad i) s := by
      unfold positionGlyph setDig
      split <;> simp_all
    simp only [digitLoopFrom, paintFrom, hdiv, hset, ih, setSeg_params]

theorem digitLoop_eq_paint (v r m pad : Nat) (s : State) :
    digitLoop v r m pad s = paintFrom (positionGlyph s.params v r pad) m 0 s := by
  have h := digitLoopFrom_eq_paint v r pad m 0 s
  simpa [digitLoop] using h

theorem overflowRun_eq_paint (m : Nat) (s : State) : overflowRun m s = paintFrom (fun _ => s.params.segMinus) m 0 s :=
  overflowRunFrom_eq_paint m 0 s

/-! ### What the common loop keeps -/

/-- Whatever every `SetSeg` keeps, the loop keeps. -/
theorem paintFrom_keeps {P : State → Prop} (hP : ∀ pos g s, P s → P (setSeg pos g s)) (g : Nat → Byte) :
    ∀ left i s, P s → P (paintFrom g left i s)
  | 0, _, _, h => h
  | left + 1, i, _, h => paintFrom_keeps hP g left (i + 1) _ (hP _ _ _ h)

@[simp] theorem paintFrom_dots (g : Nat → Byte) (left i : Nat) (s : State) : (paintFrom g left i s).dots = s.dots :=
  paintFrom_keeps (P := fun t => t.dots = s.dots) (by simp) g left i s rfl
@[simp] theorem paintFrom_cur (g : Nat → Byte) (left i : Nat) (s : State) : (paintFrom g left i s).cur = s.cur :=
  paintFrom_keeps (P := fun t => t.cur = s.cur) (by simp) g left i s rfl
@[simp] theorem paintFrom_response (g : Nat → Byte) (left i : Nat) (s : State) :
    (paintFrom g left i s).response = s.response :=
  paintFrom_keeps (P := fun t => t.response = s.response) (by simp) g left i s rfl
@[simp] theorem paintFrom_pending (g : Nat → Byte) (left i : Nat) (s : State) :
    (paintFrom g left i s).pending = s.pending :=
  paintFrom_keeps (P := fun t => t.pending = s.pending) (by simp) g left i s rfl
@[simp] theorem paintFrom_scans (g : Nat → Byte) (left i : Nat) (s : State) : (paintFrom g left i s).scans = s.scans :=
  paintFrom_keeps (P := fun t => t.scans = s.scans) (by simp) g left i s rfl
@[simp] theorem paintFrom_params (g : Nat → Byte) (left i : Nat) (s : State) :
    (paintFrom g left i s).params = s.params :=
  paintFrom_keeps (P := fun t => t.params = s.params) (by simp) g left i s rfl
@[simp] theorem paintFrom_resets (g : Nat → Byte) (left i : Nat) (s : State) :
    (paintFrom g left i s).resets = s.resets :=
  paintFrom_keeps (P := fun t => t.resets = s.resets) (by simp) g left i s rfl

/-- A print keeps whatever every `SetSeg` keeps. -/
theorem printUnsigned_keeps {P : State → Prop} (hP : ∀ pos g s, P s → P (setSeg pos g s)) (v r m pad : Nat) (s : State)
    (h : P s) : P (printUnsigned v r m pad s) := by
  unfold printUnsigned
  split
  · exact h
  · split
    · rw [overflowRun_eq_paint]; exact paintFrom_keeps hP _ _ _ _ h
    · rw [digitLoop_eq_paint]; exact paintFrom_keeps hP _ _ _ _ h

theorem printSigned_keeps {P : State → Prop} (hP : ∀ pos g s, P s → P (setSeg pos g s)) (W : WidthClass) (x r m : Nat)
    (s : State) (h : P s) : P (printSigned W x r m s) := by
  unfold printSigned
  split
  · exact h
  · dsimp only
    split
    · rw [overflowRun_eq_paint]; exact paintFrom_keeps hP _ _ _ _ h
    · rw [digitLoop_eq_paint]; exact hP _ _ _ (paintFrom_keeps hP _ _ _ _ h)

/-! ### What the common loop writes -/

/-- The segment registers after the loop. -/
theorem paintFrom_seg (g : Nat → Byte) (left i : Nat) (s : State) (p : Position) :
    (paintFrom g left i s).seg[p.val] =
      if s.cur.toNat + i ≤ p.val ∧ p.val < s.cur.toNat + i + left then g (p.val - s.cur.toNat) &&& 0x7F#8
      else s.seg[p.val] := by
  induction left generalizing i s with
  | zero =>
    have : ¬ (s.cur.toNat + i ≤ p.val ∧ p.val < s.cur.toNat + i + 0) := by omega
    simp only [paintFrom, this, if_false]
  | succ left ih =>
    rw [paintFrom, ih, setSeg_seg, setSeg_cur]
    by_cases h : p.val = s.cur.toNat + i
    · have h1 : ¬ (s.cur.toNat + (i + 1) ≤ p.val ∧ p.val < s.cur.toNat + (i + 1) + left) := by omega
      have h2 : s.cur.toNat + i ≤ p.val ∧ p.val < s.cur.toNat + i + (left + 1) := by omega
      have h3 : p.val - s.cur.toNat = i := by omega
      simp only [h1, h2, and_self, if_false, if_true, h3, if_pos h]
    · have h1 : (s.cur.toNat + (i + 1) ≤ p.val ∧ p.val < s.cur.toNat + (i + 1) + left) ↔
          (s.cur.toNat + i ≤ p.val ∧ p.val < s.cur.toNat + i + (left + 1)) := by omega
      simp only [h1, h, if_false]

/-- The chip image after the loop: the digit registers of the painted positions hold the painted glyphs with their dots. -/
theorem paintFrom_read_digit (g : Nat → Byte) (left i : Nat) (s : State) (p : Position) :
    Memory.read (paintFrom g left i s).chip (digitAddr p).val =
      if s.cur.toNat + i ≤ p.val ∧ p.val < s.cur.toNat + i + left then
        some (withDot s p (g (p.val - s.cur.toNat) &&& 0x7F#8))
      else Memory.read s.chip (digitAddr p).val := by
  induction left generalizing i s with
  | zero =>
    have : ¬ (s.cur.toNat + i ≤ p.val ∧ p.val < s.cur.toNat + i + 0) := by omega
    simp only [paintFrom, this, if_false]
  | succ left ih =>
    rw [paintFrom, ih, setSeg_read, setSeg_cur]
    have hdot : ∀ b, withDot (setSeg (s.cur.toNat + i) (g i) s) p b = withDot s p b := by
      intro b; simp only [withDot, setSeg_dots]
    by_cases h : p.val = s.cur.toNat + i
    · have h0 : s.cur.toNat + i < 8 := by omega
      have hp : p = ⟨s.cur.toNat + i, h0⟩ := Fin.ext h
      have h1 : ¬ (s.cur.toNat + (i + 1) ≤ p.val ∧ p.val < s.cur.toNat + (i + 1) + left) := by omega
      have h2 : s.cur.toNat + i ≤ p.val ∧ p.val < s.cur.toNat + i + (left + 1) := by omega
      have h3 : p.val - s.cur.toNat = i := by omega
      rw [if_neg h1, dif_pos h0, if_pos h2, h3, if_pos (by rw [← hp]), ← hp]
    · have h1 : (s.cur.toNat + (i + 1) ≤ p.val ∧ p.val < s.cur.toNat + (i + 1) + left) ↔
          (s.cur.toNat + i ≤ p.val ∧ p.val < s.cur.toNat + i + (left + 1)) := by omega
      simp only [h1, hdot]
      by_cases h0 : s.cur.toNat + i < 8
      · have hne : ¬ (digitAddr p).val = (digitAddr ⟨s.cur.toNat + i, h0⟩).val := by
          rw [digitAddr_inj]
          intro hp
          exact h (congrArg Fin.val hp)
        simp only [h0, dif_pos, hne, if_false]
      · simp only [h0, dif_neg, not_false_iff]

/-- The loop leaves every address that is no digit register of a painted position alone. -/
theorem paintFrom_read_other (g : Nat → Byte) (left i : Nat) (s : State) {a : Nat}
    (ha : ∀ p : Position, s.cur.toNat + i ≤ p.val → p.val < s.cur.toNat + i + left → a ≠ (digitAddr p).val) :
    Memory.read (paintFrom g left i s).chip a = Memory.read s.chip a := by
  induction left generalizing i s with
  | zero => rfl
  | succ left ih =>
    rw [paintFrom, ih, setSeg_read]
    · by_cases h0 : s.cur.toNat + i < 8
      · have := ha ⟨s.cur.toNat + i, h0⟩ (Nat.le_refl _) (by simp)
        simp only [h0, dif_pos, this, if_false]
      · simp only [h0, dif_neg, not_false_iff]
    · intro p h1 h2
      rw [setSeg_cur] at h1 h2
      exact ha p (by omega) (by omega)

/-- The positions of a budget, one more position at a time from the right. -/
theorem budgetPositions_cons {c n : Nat} (h : c < 8) :
    budgetPositions c (n + 1) = ⟨c, h⟩ :: budgetPositions (c + 1) n := by
  have key : ∀ c : Fin 8, ∀ n : Fin 9,
      budgetPositions c.val (n.val + 1) = c :: budgetPositions (c.val + 1) n.val := by decide
  have cap : ∀ d k, 8 ≤ d + k → ∀ j, 8 ≤ d + j → budgetPositions d k = budgetPositions d j := by
    intro d k hk j hj
    unfold budgetPositions
    apply List.filter_congr
    intro p _
    have : (decide (p.val < d + k) : Bool) = decide (p.val < d + j) := by
      have h1 : p.val < d + k := by omega
      have h2 : p.val < d + j := by omega
      simp [h1, h2]
    simp only [inBudget, this]
  by_cases hn : n < 9
  · exact key ⟨c, h⟩ ⟨n, hn⟩
  · rw [cap c (n + 1) (by omega) 9 (by omega), cap (c + 1) n (by omega) 8 (by omega)]
    exact key ⟨c, h⟩ ⟨8, by omega⟩

theorem budgetPositions_off {c n : Nat} (h : 8 ≤ c) : budgetPositions c n = [] := by
  unfold budgetPositions
  rw [List.filter_eq_nil_iff]
  intro p _
  have : ¬ c ≤ p.val := by omega
  simp [inBudget, this]

theorem budgetPositions_zero (c : Nat) : budgetPositions c 0 = [] := by
  unfold budgetPositions
  rw [List.filter_eq_nil_iff]
  intro p _
  simp [inBudget]

/-- The transactions of the loop: one write for every position of the budget on the display, ascending. -/
theorem paintFrom_trace (g : Nat → Byte) (left i : Nat) (s : State) :
    (paintFrom g left i s).trace = s.trace ++
      (budgetPositions (s.cur.toNat + i) left).map
        (fun p => .wr (digitAddr p) (withDot s p (g (p.val - s.cur.toNat) &&& 0x7F#8))) := by
  induction left generalizing i s with
  | zero => simp [paintFrom, budgetPositions_zero]
  | succ left ih =>
    rw [paintFrom, ih, setSeg_trace, setSeg_cur]
    have hdot : ∀ p b, withDot (setSeg (s.cur.toNat + i) (g i) s) p b = withDot s p b := by
      intro p b; simp only [withDot, setSeg_dots]
    simp only [hdot]
    by_cases h0 : s.cur.toNat + i < 8
    · rw [budgetPositions_cons h0]
      simp [h0, Nat.add_assoc]
    · rw [budgetPositions_off (by omega), budgetPositions_off (by omega)]
      simp [h0]

/-- How many positions of a budget are on the display. -/
theorem budgetPositions_length (c n : Nat) : (budgetPositions c n).length = min n (8 - c) := by
  induction n generalizing c with
  | zero => simp [budgetPositions_zero]
  | succ n ih =>
    by_cases h : c < 8
    · rw [budgetPositions_cons h, List.length_cons, ih]
      omega
    · rw [budgetPositions_off (by omega)]
      simp
      omega

end Sys2Proof.Machine
end

