-- ==== Sys2Proof/Laws/Exec.lean ====
section
/-! SUPPORT. What a command can do, said once: every meaning is a body run from the start of a command, and every body is a
chain of register updates and transactions. The frames and invariants of all commands follow from these lemmas. -/

namespace Sys2Proof.Machine

/-- The body of each command, the operation its meaning runs. -/
def body (i : Instr) (s : State) : State :=
  match i with
  | .enc a => respond (glyph s.params a.toNat) s
  | .swpp a => if h : a.toNat < 8 then respond (BitVec.ofNat 8 (swapPos ⟨a.toNat, h⟩).val) s else s
  | .swpl a => if h : a.toNat < 8 then respond (BitVec.ofNat 8 (swapLed ⟨a.toNat, h⟩).val) s else s
  | .swpb a => respond (swapBits a) s
  | .setseg a b => setSeg a.toNat b s
  | .setdig a b => setDig a.toNat b.toNat s
  | .doton a =>
    if h : a.toNat < 8 then render ⟨a.toNat, h⟩ { s with dots := s.dots ||| (1#8 <<< a.toNat) } else s
  | .dotoff a =>
    if h : a.toNat < 8 then render ⟨a.toNat, h⟩ { s with dots := s.dots &&& ~~~(1#8 <<< a.toNat) } else s
  | .setdots a => renderAll { s with dots := a }
  | .refresh => renderAll s
  | .clear => chipClear { s with seg := Vector.replicate 8 0x00#8, dots := 0x00#8 }
  | .setcur a => if a.toNat ≤ 7 then { s with cur := a } else s
  | .printu8 v r m p => printUnsigned (cutValue .w8 v) r.toNat m.toNat p.toNat s
  | .printu16 v r m p => printUnsigned (cutValue .w16 v) r.toNat m.toNat p.toNat s
  | .printu32 v r m p => printUnsigned (cutValue .w32 v) r.toNat m.toNat p.toNat s
  | .prints8 v r m => printSigned .w8 (cutValue .w8 v) r.toNat m.toNat s
  | .prints16 v r m => printSigned .w16 (cutValue .w16 v) r.toNat m.toNat s
  | .prints32 v r m => printSigned .w32 (cutValue .w32 v) r.toNat m.toNat s
  | .setled a b =>
    if h : a.toNat < 8 then (if legalColor b then memWrite (ledAddr ⟨a.toNat, h⟩) b s else s) else s
  | .ledson a b => if legalColor b then writeLeds a b s else s
  | .ledsoff a => writeLeds a (colorByte s.params.colorOff) s
  | .getbtn => readButtons (Config.keyScan s.scans) s

theorem exec_eq_body (i : Instr) (s : State) : exec i s = .next (body i (beginCommand s)) := by
  cases i <;> rfl

theorem body_printUnsigned (W : WidthClass) (v : BitVec 32) (r m p : Byte) (s : State) :
    body (.printUnsigned W v r m p) s = printUnsigned (cutValue W v) r.toNat m.toNat p.toNat s := by
  cases W <;> rfl

theorem body_printSigned (W : WidthClass) (v : BitVec 32) (r m : Byte) (s : State) :
    body (.printSigned W v r m) s = printSigned W (cutValue W v) r.toNat m.toNat s := by
  cases W <;> rfl

/-- Two states of one outcome `next` are one state. -/
theorem next_inj {t u : State} (h : (Host.Outcome.next t : Host.Outcome State Fault Refusal) = .next u) : t = u := by
  injection h

/-- A property kept by every transaction and by every update of the registers, the response and the scan count is kept by the
body of every command. -/
theorem body_keeps {P : State → Prop} (hemit : ∀ x s, P s → P (emit x s))
    (hregs : ∀ (s : State) seg dots cur response scans, P s →
      P { s with seg := seg, dots := dots, cur := cur, response := response, scans := scans })
    (i : Instr) (s : State) (h : P s) : P (body i s) := by
  have hset : ∀ pos g s, P s → P (setSeg pos g s) := fun pos g s hs =>
    setSeg_cases pos g s (fun _ => hs) (fun _ => hemit _ _ (hregs s _ s.dots s.cur s.response s.scans hs))
  have hrender : ∀ (ps : List Position) s, P s → P (ps.foldl (fun s p => render p s) s) := by
    intro ps
    induction ps with
    | nil => exact fun s hs => hs
    | cons p ps ih => exact fun s hs => ih _ (hemit _ _ hs)
  have hled : ∀ (ls : List LedIndex) (mask v : Byte) s, P s →
      P (ls.foldl (fun s i => if mask.getLsbD i.val then memWrite (ledAddr i) v s else s) s) := by
    intro ls mask v
    induction ls with
    | nil => exact fun s hs => hs
    | cons l ls ih =>
      intro s hs
      rw [List.foldl_cons]
      apply ih
      split
      · exact hemit _ _ hs
      · exact hs
  cases i with
  | enc a => exact hregs s s.seg s.dots s.cur _ s.scans h
  | swpp a => simp only [body]; split; exacts [hregs s s.seg s.dots s.cur _ s.scans h, h]
  | swpl a => simp only [body]; split; exacts [hregs s s.seg s.dots s.cur _ s.scans h, h]
  | swpb a => exact hregs s s.seg s.dots s.cur _ s.scans h
  | setseg a b => exact hset _ _ _ h
  | setdig a b => exact hset _ _ _ h
  | doton a => simp only [body]; split; exacts [hemit _ _ (hregs s s.seg _ s.cur s.response s.scans h), h]
  | dotoff a => simp only [body]; split; exacts [hemit _ _ (hregs s s.seg _ s.cur s.response s.scans h), h]
  | setdots a => exact hrender _ _ (hregs s s.seg _ s.cur s.response s.scans h)
  | refresh => exact hrender _ _ h
  | clear => exact hemit _ _ (hregs s _ _ s.cur s.response s.scans h)
  | setcur a => simp only [body]; split; exacts [hregs s s.seg s.dots _ s.response s.scans h, h]
  | printu8 v r m p => exact printUnsigned_keeps hset _ _ _ _ _ h
  | printu16 v r m p => exact printUnsigned_keeps hset _ _ _ _ _ h
  | printu32 v r m p => exact printUnsigned_keeps hset _ _ _ _ _ h
  | prints8 v r m => exact printSigned_keeps hset _ _ _ _ _ h
  | prints16 v r m => exact printSigned_keeps hset _ _ _ _ _ h
  | prints32 v r m => exact printSigned_keeps hset _ _ _ _ _ h
  | setled a b =>
    simp only [body]
    split
    · split; exacts [hemit _ _ h, h]
    · exact h
  | ledson a b => simp only [body]; split; exacts [hled _ _ _ _ h, h]
  | ledsoff a => exact hled _ _ _ _ h
  | getbtn =>
    exact hregs (emit (.rdk (Config.keyScan s.scans)) s) s.seg s.dots s.cur
      (some (decodeKeys (Config.keyScan s.scans))) (s.scans + 1) (hemit _ _ h)

/-- Two runs of one command from related states end in related states, for every relation whose states agree on the registers
and the parameters, and which every transaction, every update of the registers, every response and every advance of the scan
count keeps; a key read needs the same answer on both sides. -/
theorem body_related {R : State → State → Prop}
    (hread : ∀ s u, R s u → s.seg = u.seg ∧ s.dots = u.dots ∧ s.cur = u.cur ∧ s.params = u.params)
    (hemit : ∀ x s u, R s u → R (emit x s) (emit x u))
    (hregs : ∀ (s u : State) seg dots cur, R s u →
      R { s with seg := seg, dots := dots, cur := cur } { u with seg := seg, dots := dots, cur := cur })
    (hscan : ∀ s u, R s u → R { s with scans := s.scans + 1 } { u with scans := u.scans + 1 })
    (hresp : ∀ v s u, R s u → R (respond v s) (respond v u))
    (i : Instr) (s u : State) (hkey : i = .getbtn → Config.keyScan s.scans = Config.keyScan u.scans) (h : R s u) :
    R (body i s) (body i u) := by
  have hrender : ∀ p s u, R s u → R (render p s) (render p u) := by
    intro p s u h
    obtain ⟨h1, h2, -, -⟩ := hread s u h
    unfold render combined
    rw [h1, h2]
    exact hemit _ _ _ h
  have hset : ∀ pos g s u, R s u → R (setSeg pos g s) (setSeg pos g u) := by
    intro pos g s u h
    obtain ⟨h1, h2, h3, h4⟩ := hread s u h
    unfold setSeg
    split
    · apply hrender
      have := hregs s u (u.seg.set pos (g &&& 0x7F#8)) u.dots u.cur h
      rw [h1, h2, h3]
      exact this
    · exact h
  have hpaint : ∀ g left i s u, R s u → R (paintFrom g left i s) (paintFrom g left i u) := by
    intro g left
    induction left with
    | zero => exact fun _ _ _ h => h
    | succ left ih =>
      intro i s u h
      unfold paintFrom
      rw [(hread s u h).2.2.1]
      exact ih _ _ _ (hset _ _ _ _ h)
  have hall : ∀ s u, R s u → R (renderAll s) (renderAll u) := by
    have : ∀ (ps : List Position) s u, R s u →
        R (ps.foldl (fun s p => render p s) s) (ps.foldl (fun s p => render p s) u) := by
      intro ps
      induction ps with
      | nil => exact fun _ _ h => h
      | cons p ps ih => exact fun s u h => ih _ _ (hrender _ _ _ h)
    exact this ascending
  have hled : ∀ mask v s u, R s u → R (writeLeds mask v s) (writeLeds mask v u) := by
    intro mask v
    have : ∀ (ls : List LedIndex) s u, R s u →
        R (ls.foldl (fun s i => if mask.getLsbD i.val then memWrite (ledAddr i) v s else s) s)
          (ls.foldl (fun s i => if mask.getLsbD i.val then memWrite (ledAddr i) v s else s) u) := by
      intro ls
      induction ls with
      | nil => exact fun _ _ h => h
      | cons l ls ih =>
        intro s u h
        rw [List.foldl_cons, List.foldl_cons]
        apply ih
        split
        exacts [hemit _ _ _ h, h]
    exact this ascending
  have hpu : ∀ v r m p s u, R s u → R (printUnsigned v r m p s) (printUnsigned v r m p u) := by
    intro v r m p s u h
    unfold printUnsigned
    rw [(hread s u h).2.2.1, (hread s u h).2.2.2]
    split
    · exact h
    · split
      · rw [overflowRun_eq_paint, overflowRun_eq_paint, (hread s u h).2.2.2]; exact hpaint _ _ _ _ _ h
      · rw [digitLoop_eq_paint, digitLoop_eq_paint, (hread s u h).2.2.2]; exact hpaint _ _ _ _ _ h
  have hps : ∀ W v r m s u, R s u → R (printSigned W v r m s) (printSigned W v r m u) := by
    intro W v r m s u h
    unfold printSigned
    rw [(hread s u h).2.2.1, (hread s u h).2.2.2]
    split
    · exact h
    · dsimp only
      split
      · rw [overflowRun_eq_paint, overflowRun_eq_paint, (hread s u h).2.2.2]; exact hpaint _ _ _ _ _ h
      · rw [digitLoop_eq_paint, digitLoop_eq_paint, writeSign, writeSign, paintFrom_cur, paintFrom_cur,
          paintFrom_params, paintFrom_params, (hread s u h).2.2.1, (hread s u h).2.2.2]
        exact hset _ _ _ _ (hpaint _ _ _ _ _ h)
  obtain ⟨h1, h2, h3, h4⟩ := hread s u h
  have hdots : ∀ d, R { s with dots := d } { u with dots := d } := fun d => by
    have := hregs s u u.seg d u.cur h
    rw [h1, h3]
    exact this
  cases i with
  | enc a => simp only [body]; rw [h4]; exact hresp _ _ _ h
  | swpp a => simp only [body]; split; exacts [hresp _ _ _ h, h]
  | swpl a => simp only [body]; split; exacts [hresp _ _ _ h, h]
  | swpb a => exact hresp _ _ _ h
  | setseg a b => exact hset _ _ _ _ h
  | setdig a b => simp only [body, setDig]; rw [h4]; exact hset _ _ _ _ h
  | doton a => simp only [body]; split; exacts [h2 ▸ hrender _ _ _ (hdots _), h]
  | dotoff a => simp only [body]; split; exacts [h2 ▸ hrender _ _ _ (hdots _), h]
  | setdots a => exact hall _ _ (hdots a)
  | refresh => exact hall _ _ h
  | clear =>
    have := hregs s u (Vector.replicate 8 0x00#8) 0x00#8 u.cur h
    refine hemit _ _ _ ?_
    rw [h3]
    exact this
  | setcur a =>
    simp only [body]
    split
    · have := hregs s u u.seg u.dots a h
      rw [h1, h2]
      exact this
    · exact h
  | printu8 v r m p => exact hpu _ _ _ _ _ _ h
  | printu16 v r m p => exact hpu _ _ _ _ _ _ h
  | printu32 v r m p => exact hpu _ _ _ _ _ _ h
  | prints8 v r m => exact hps _ _ _ _ _ _ h
  | prints16 v r m => exact hps _ _ _ _ _ _ h
  | prints32 v r m => exact hps _ _ _ _ _ _ h
  | setled a b =>
    simp only [body]
    split
    · split; exacts [hemit _ _ _ h, h]
    · exact h
  | ledson a b => simp only [body]; split; exacts [hled _ _ _ _ h, h]
  | ledsoff a => simp only [body]; rw [h4]; exact hled _ _ _ _ h
  | getbtn =>
    simp only [body, readButtons, keyScanRead]
    rw [hkey rfl]
    exact hresp _ _ _ (hscan _ _ (hemit _ _ _ h))

/-- No command touches the host's moves, the reset count or the parameters. -/
theorem body_host (i : Instr) (s : State) :
    (body i s).pending = s.pending ∧ (body i s).resets = s.resets ∧ (body i s).params = s.params :=
  body_keeps (P := fun t => t.pending = s.pending ∧ t.resets = s.resets ∧ t.params = s.params) (fun _ _ h => h)
    (fun _ _ _ _ _ _ h => h) i s ⟨rfl, rfl, rfl⟩

/-- What waits at the port changes nothing of a command. -/
theorem body_pending (i : Instr) (s : State) (moves : List HostMove) :
    body i { s with pending := moves } = { body i s with pending := moves } := by
  refine body_related (R := fun t u => t = { u with pending := moves }) ?_ ?_ ?_ ?_ ?_ i _ s (fun _ => rfl) rfl
  · rintro _ u rfl; exact ⟨rfl, rfl, rfl, rfl⟩
  · rintro x _ u rfl; rfl
  · rintro _ u seg dots cur rfl; rfl
  · rintro _ u rfl; rfl
  · rintro v _ u rfl; rfl

end Sys2Proof.Machine
end

