-- ==== Sys2Proof/Laws/PerInstr.lean ====
section
/-! SUPPORT. The per-instruction family OpcodeField: the encoding of a command carries the command's opcode in `cmd[63:56]`
and the opcode is one of the 22 of R63. One lemma per constructor. -/

namespace Sys2Proof.Laws.OpcodeField

/-- The opcode of a command stands in the top byte of its word, and the table lists it (R60, R63). -/
def Statement (i : Instr) : Prop := opField (encode i) = i.opcode ∧ i.opcode ∈ opcodes

theorem enc (a : Byte) : Statement (.enc a) :=
  ⟨opField_packWord _ _ _ _ _, by simp [Instr.opcode, opcodes]⟩
theorem swpp (a : Byte) : Statement (.swpp a) :=
  ⟨opField_packWord _ _ _ _ _, by simp [Instr.opcode, opcodes]⟩
theorem swpl (a : Byte) : Statement (.swpl a) :=
  ⟨opField_packWord _ _ _ _ _, by simp [Instr.opcode, opcodes]⟩
theorem swpb (a : Byte) : Statement (.swpb a) :=
  ⟨opField_packWord _ _ _ _ _, by simp [Instr.opcode, opcodes]⟩
theorem setseg (a b : Byte) : Statement (.setseg a b) :=
  ⟨opField_packWord _ _ _ _ _, by simp [Instr.opcode, opcodes]⟩
theorem setdig (a b : Byte) : Statement (.setdig a b) :=
  ⟨opField_packWord _ _ _ _ _, by simp [Instr.opcode, opcodes]⟩
theorem doton (a : Byte) : Statement (.doton a) :=
  ⟨opField_packWord _ _ _ _ _, by simp [Instr.opcode, opcodes]⟩
theorem dotoff (a : Byte) : Statement (.dotoff a) :=
  ⟨opField_packWord _ _ _ _ _, by simp [Instr.opcode, opcodes]⟩
theorem setdots (a : Byte) : Statement (.setdots a) :=
  ⟨opField_packWord _ _ _ _ _, by simp [Instr.opcode, opcodes]⟩
theorem refresh : Statement (.refresh) :=
  ⟨opField_packWord _ _ _ _ _, by simp [Instr.opcode, opcodes]⟩
theorem clear : Statement (.clear) :=
  ⟨opField_packWord _ _ _ _ _, by simp [Instr.opcode, opcodes]⟩
theorem setcur (a : Byte) : Statement (.setcur a) :=
  ⟨opField_packWord _ _ _ _ _, by simp [Instr.opcode, opcodes]⟩
theorem printu8 (val : BitVec 32) (rdx mxd pad : Byte) : Statement (.printu8 val rdx mxd pad) :=
  ⟨opField_packWord _ _ _ _ _, by simp [Instr.opcode, opcodes]⟩
theorem printu16 (val : BitVec 32) (rdx mxd pad : Byte) : Statement (.printu16 val rdx mxd pad) :=
  ⟨opField_packWord _ _ _ _ _, by simp [Instr.opcode, opcodes]⟩
theorem printu32 (val : BitVec 32) (rdx mxd pad : Byte) : Statement (.printu32 val rdx mxd pad) :=
  ⟨opField_packWord _ _ _ _ _, by simp [Instr.opcode, opcodes]⟩
theorem prints8 (val : BitVec 32) (rdx mxd : Byte) : Statement (.prints8 val rdx mxd) :=
  ⟨opField_packWord _ _ _ _ _, by simp [Instr.opcode, opcodes]⟩
theorem prints16 (val : BitVec 32) (rdx mxd : Byte) : Statement (.prints16 val rdx mxd) :=
  ⟨opField_packWord _ _ _ _ _, by simp [Instr.opcode, opcodes]⟩
theorem prints32 (val : BitVec 32) (rdx mxd : Byte) : Statement (.prints32 val rdx mxd) :=
  ⟨opField_packWord _ _ _ _ _, by simp [Instr.opcode, opcodes]⟩
theorem setled (a b : Byte) : Statement (.setled a b) :=
  ⟨opField_packWord _ _ _ _ _, by simp [Instr.opcode, opcodes]⟩
theorem ledson (a b : Byte) : Statement (.ledson a b) :=
  ⟨opField_packWord _ _ _ _ _, by simp [Instr.opcode, opcodes]⟩
theorem ledsoff (a : Byte) : Statement (.ledsoff a) :=
  ⟨opField_packWord _ _ _ _ _, by simp [Instr.opcode, opcodes]⟩
theorem getbtn : Statement (.getbtn) :=
  ⟨opField_packWord _ _ _ _ _, by simp [Instr.opcode, opcodes]⟩

end Sys2Proof.Laws.OpcodeField
end

