-- ==== Sys2Proof/Laws/Step.lean ====
section
/-! SUPPORT. What one step can do, said once: a step waits, or performs the next move; and a performed command word is the
body of its command or nothing. -/

namespace Sys2Proof.Machine

theorem step_idle {s : State} (h : s.pending = []) : step s = .next s := by
  unfold step
  rw [h]

theorem step_move {s : State} {m : HostMove} {rest : List HostMove} (h : s.pending = m :: rest) :
    step s = performMove m { s with pending := rest } := by
  unfold step
  rw [h]

/-- One step of a run, when it answers a next state. -/
theorem run_succ {k : Nat} {s t : State} (h : step s = .next t) :
    Host.Core.run Sys2Proof.core (k + 1) s = Host.Core.run Sys2Proof.core k t := by
  have h' : Sys2Proof.core.step s = .next t := h
  simp only [Host.Core.run, h']

/-- A command word is performed as the body of the command it decodes to, or does nothing. -/
theorem performWord_cases (w : CommandWord) (s : State) :
    (∃ i, decode w = .ok i ∧ performWord w s = .next (body i (beginCommand s))) ∨
    ((∃ op, decode w = .error (.reservedOpcode op)) ∧ performWord w s = .next (beginCommand s)) := by
  unfold performWord
  cases h : decode w with
  | ok i => exact .inl ⟨i, rfl, exec_eq_body i s⟩
  | error e =>
    obtain ⟨op⟩ := e
    exact .inr ⟨⟨op, rfl⟩, rfl⟩

/-- Every move of the host ends in a next state and leaves the moves still to come as they were; and what waits at the port
changes nothing of it. -/
theorem performMove_pending (m : HostMove) (s : State) :
    ∃ t, performMove m s = .next t ∧ t.pending = s.pending ∧
      ∀ moves, performMove m { s with pending := moves } = .next { t with pending := moves } := by
  have hw : ∀ w, ∃ t, performWord w s = .next t ∧ t.pending = s.pending ∧
      ∀ moves, performWord w { s with pending := moves } = .next { t with pending := moves } := by
    intro w
    unfold performWord
    cases decode w with
    | ok i =>
      exact ⟨_, exec_eq_body i s, (body_host i _).1,
        fun moves => (exec_eq_body i _).trans (congrArg _ (body_pending i (beginCommand s) moves))⟩
    | error e => exact ⟨beginCommand s, rfl, rfl, fun _ => rfl⟩
  cases m with
  | command w => exact hw w
  | reset => exact ⟨hardReset s, rfl, rfl, fun _ => rfl⟩
  | resetDuring w done =>
    obtain ⟨t, h, hp, hm⟩ := hw w
    exact ⟨abortedBy done t, by simp only [performMove, h, afterNext], hp,
      fun moves => by simp only [performMove, hm, afterNext, abortedBy, hardReset]⟩

/-- Every step ends in one of four ways. -/
theorem step_cases (s : State) :
    (s.pending = [] ∧ step s = .next s) ∨
    (∃ w rest t, s.pending = .command w :: rest ∧ performWord w { s with pending := rest } = .next t ∧ step s = .next t) ∨
    (∃ rest, s.pending = .reset :: rest ∧ step s = .next (hardReset { s with pending := rest })) ∨
    (∃ w done rest t, s.pending = .resetDuring w done :: rest ∧ performWord w { s with pending := rest } = .next t ∧
      step s = .next (abortedBy done t)) := by
  have hnext : ∀ (w : CommandWord) (u : State), ∃ t, performWord w u = .next t := fun w u => by
    obtain ⟨i, -, h⟩ | ⟨-, h⟩ := performWord_cases w u
    exacts [⟨_, h⟩, ⟨_, h⟩]
  cases hp : s.pending with
  | nil => exact .inl ⟨rfl, step_idle hp⟩
  | cons m rest =>
    have hs := step_move hp
    cases m with
    | command w =>
      obtain ⟨t, ht⟩ := hnext w { s with pending := rest }
      exact .inr (.inl ⟨w, rest, t, rfl, ht, hs.trans ht⟩)
    | reset => exact .inr (.inr (.inl ⟨rest, rfl, hs⟩))
    | resetDuring w done =>
      obtain ⟨t, ht⟩ := hnext w { s with pending := rest }
      refine .inr (.inr (.inr ⟨w, done, rest, t, rfl, ht, ?_⟩))
      rw [hs]
      simp only [performMove, ht, afterNext]

end Sys2Proof.Machine
end

