-- ==== Sys2Proof/Tests/Slice0.lean ====
section
/-! SUPPORT. Tests of one step each, with the results written out in spec/95_test_vectors.md and in the worked encodings of
R66, and after them a witness for the hypotheses of every obligation that has some. -/

namespace Sys2Proof.Tests

open Sys2Proof Sys2Proof.Machine

/-! ### Helpers -/

/-- The reset state with a dot mask and a cursor. -/
def startAt (dots cur : Byte) : State := { State.reset with dots := dots, cur := cur }

/-- The reset state with one segment register set. -/
def startWith (p : Position) (g dots cur : Byte) : State :=
  { State.reset with seg := State.reset.seg.set p.val g, dots := dots, cur := cur }

/-- The next state, if there is one. -/
def nextOf (o : Host.Outcome State Fault Refusal) : Option State :=
  match o with
  | .next t => some t
  | .fault _ => none
  | .refused _ => none

/-- What a command shows at the ports and in the registers: trace, response, `SEG`, `DOTS`, `CUR`. -/
def shown (o : Host.Outcome State Fault Refusal) : Option (List Transaction × Option Byte × List Byte × Byte × Byte) :=
  (nextOf o).map (fun t => (t.trace, t.response, t.seg.toList, t.dots, t.cur))

/-- The trace of a command. -/
def traceOf (o : Host.Outcome State Fault Refusal) : Option (List Transaction) := (nextOf o).map State.trace

/-- The segment registers after a command. -/
def segOf (o : Host.Outcome State Fault Refusal) : Option (List Byte) := (nextOf o).map (fun t => t.seg.toList)

/-! ### Well-formedness: an ill-formed term for each check -/

theorem test_printu8_needs_8_bits : (Instr.printu8 0x100 10 3 1).wellFormed = false ∧
    (Instr.printu8 0xFF 10 3 1).wellFormed = true := by decide
theorem test_printu16_needs_16_bits : (Instr.printu16 0x10000 10 3 1).wellFormed = false ∧
    (Instr.printu16 0xFFFF 10 3 1).wellFormed = true := by decide
theorem test_prints8_needs_8_bits : (Instr.prints8 0xFFFFFF80 10 4).wellFormed = false ∧
    (Instr.prints8 0x80 10 4).wellFormed = true := by decide
theorem test_prints16_needs_16_bits : (Instr.prints16 0xFFFF8000 10 6).wellFormed = false ∧
    (Instr.prints16 0x8000 10 6).wellFormed = true := by decide
/-- A 32-bit value always fits its class: there is no ill-formed `PRINTU32` or `PRINTS32`. -/
theorem test_print32_always_fits : (Instr.printu32 0xFFFFFFFF 10 8 1).wellFormed = true ∧
    (Instr.prints32 0x80000000 10 8).wellFormed = true := by decide

/-! ### Decoding: words of R66 and of 95_test_vectors.md -/

theorem test_decode_enc : decode 0x10FFFFFFFFFFFF0F = .ok (.enc 15) := by decide
theorem test_decode_swpp : decode 0x1100000000000007 = .ok (.swpp 7) := by decide
theorem test_decode_swpl : decode 0x1200000000000005 = .ok (.swpl 5) := by decide
theorem test_decode_swpb : decode 0x1300000000000012 = .ok (.swpb 0x12) := by decide
theorem test_decode_setseg : decode 0x200000000000FF07 = .ok (.setseg 7 0xFF) := by decide
theorem test_decode_setdig : decode 0x2100000000000F00 = .ok (.setdig 0 15) := by decide
theorem test_decode_doton : decode 0x2200000000000003 = .ok (.doton 3) := by decide
theorem test_decode_dotoff : decode 0x2300000000000003 = .ok (.dotoff 3) := by decide
theorem test_decode_setdots : decode 0x2400000000000081 = .ok (.setdots 0x81) := by decide
theorem test_decode_refresh : decode 0x2500000000000000 = .ok .refresh := by decide
theorem test_decode_clear : decode 0x26FFFFFFFFFFFFFF = .ok .clear := by decide
theorem test_decode_setcur : decode 0x2700000000000002 = .ok (.setcur 2) := by decide
theorem test_decode_printu8 : decode 0x300A0301000001FF = .ok (.printu8 0xFF 10 3 1) := by decide
theorem test_decode_printu16 : decode 0x311004010000FFFF = .ok (.printu16 0xFFFF 16 4 1) := by decide
theorem test_decode_printu32 : decode 0x320A0901075BCD15 = .ok (.printu32 123456789 10 9 1) := by decide
theorem test_decode_prints8 : decode 0x340A04000000017B = .ok (.prints8 0x7B 10 4) := by decide
theorem test_decode_prints16 : decode 0x350A060000008000 = .ok (.prints16 0x8000 10 6) := by decide
theorem test_decode_prints32 : decode 0x360A04FFFFFFFFFB = .ok (.prints32 0xFFFFFFFB 10 4) := by decide
theorem test_decode_setled : decode 0x4000000000000207 = .ok (.setled 7 2) := by decide
theorem test_decode_ledson : decode 0x41000000000001A5 = .ok (.ledson 0xA5 1) := by decide
theorem test_decode_ledsoff : decode 0x42000000000000FF = .ok (.ledsoff 0xFF) := by decide
theorem test_decode_getbtn : decode 0x4300000000000000 = .ok .getbtn := by decide
theorem test_decode_reserved : decode 0x0000000000000000 = .error (.reservedOpcode 0) ∧
    decode 0x330A030100000005 = .error (.reservedOpcode 0x33) ∧
    decode 0x370A040000000005 = .error (.reservedOpcode 0x37) ∧
    decode 0xFF00000000000000 = .error (.reservedOpcode 0xFF) := by decide
/-- R63 has 22 opcodes, no two alike, so that R65 counts 234 reserved ones. -/
theorem test_opcodes : opcodes.Nodup ∧ 256 - opcodes.length = 234 := by decide

/-! ### Encoding and the assembler: the rows of R66 -/

theorem test_assemble_display : (assemble defaultParams
    "CLEAR\nREFRESH\nSETCUR 2\nSETSEG 2, 0x40\nSETDIG 0, 15\nDOTON 3\nSETDOTS 0x81").map (List.map encode) =
    .ok [0x2600000000000000, 0x2500000000000000, 0x2700000000000002, 0x2000000000004002, 0x2100000000000F00,
      0x2200000000000003, 0x2400000000000081] := by decide
theorem test_assemble_prints : (assemble defaultParams
    "PRINTU32 5, 10, 3, 1\nPRINTU8 255, 16, 2, 1\nPRINTU16 1000, 10, 3, 1\nPRINTS32 -5, 10, 4\nPRINTS8 -128, 10, 4").map
      (List.map encode) =
    .ok [0x320A030100000005, 0x30100201000000FF, 0x310A0301000003E8, 0x360A0400FFFFFFFB, 0x340A040000000080] := by decide
theorem test_assemble_board : (assemble defaultParams
    "SETLED 0, red\nLEDSON 0x0F, green\nLEDSOFF 0xFF\nGETBTN ; keys\n\nENC 15\nSWPB 0x01").map (List.map encode) =
    .ok [0x4000000000000100, 0x410000000000020F, 0x42000000000000FF, 0x4300000000000000, 0x100000000000000F,
      0x1300000000000001] := by decide
/-- Named patterns and the numbers of 95_test_vectors.md P1, V5.20, V5.29. -/
theorem test_assemble_constants : (assemble defaultParams
    "SETSEG 0, CELSIUS\nSETSEG 1, DEGREE\nPRINTS16 -32768, 10, 6\nPRINTS32 -0x0FFFFFFF, 16, 8").map (List.map encode) =
    .ok [0x2000000000003900, 0x2000000000006301, 0x350A060000008000, 0x36100800F0000001] := by decide
theorem test_assemble_errors : assemble defaultParams "BRIGHT 3" = .error .unknownMnemonic ∧
    assemble defaultParams "SETSEG 1" = .error .operandCount ∧ assemble defaultParams "DOTON two" = .error .notANumber ∧
    assemble defaultParams "PRINTS8 -129, 10, 4" = .error .outOfRange ∧
    assemble defaultParams "SETCUR 256" = .error .outOfRange := by decide

/-! ### The host's two readings of a word -/

theorem test_table_word : decodeTableWord 64 0x2000000000004002 = some (.setseg 2 0x40) ∧
    decodeTableWord 64 0x3300000000000000 = none := by decide
theorem test_fetch_word : (State.reset.withFetchWord 64 0x2000000000004002).pending = [.command 0x2000000000004002] ∧
    traceOf (step (State.reset.withFetchWord 64 0x2000000000004002)) = some [.wr 10 0x40] := by decide

/-! ### Look-ups (V1.16, V1.17, V2) -/

theorem test_enc_f : shown (exec (.enc 15) State.reset) = some ([], some 0x71, List.replicate 8 0, 0, 0) := by decide
theorem test_enc_blank : (nextOf (exec (.enc 16) State.reset)).map State.response = some (some 0x00) := by decide
theorem test_swpp : (nextOf (exec (.swpp 3) State.reset)).map State.response = some (some 0x04) := by decide
theorem test_swpp_out : (nextOf (exec (.swpp 8) State.reset)).map State.response = some none := by decide
theorem test_swpl : (nextOf (exec (.swpl 5) State.reset)).map State.response = some (some 0x02) := by decide
theorem test_swpl_out : (nextOf (exec (.swpl 8) State.reset)).map State.response = some none := by decide
theorem test_swpb : (nextOf (exec (.swpb 0x12) State.reset)).map State.response = some (some 0x48) := by decide
theorem test_swpb_one : (nextOf (exec (.swpb 0x01) State.reset)).map State.response = some (some 0x80) := by decide

/-- The column "segments lit" of R82, and the three named patterns of R84. -/
theorem test_lit_segments_0_to_7 :
    [0, 1, 2, 3, 4, 5, 6, 7].map (fun d => litSegments (glyph defaultParams d)) =
      [[.a, .b, .c, .d, .e, .f], [.b, .c], [.a, .b, .d, .e, .g], [.a, .b, .c, .d, .g], [.b, .c, .f, .g],
       [.a, .c, .d, .f, .g], [.a, .c, .d, .e, .f, .g], [.a, .b, .c]] := by decide
theorem test_lit_segments_8_to_15 :
    [8, 9, 10, 11, 12, 13, 14, 15].map (fun d => litSegments (glyph defaultParams d)) =
      [[.a, .b, .c, .d, .e, .f, .g], [.a, .b, .c, .d, .f, .g], [.a, .b, .c, .e, .f, .g], [.c, .d, .e, .f, .g],
       [.a, .d, .e, .f], [.b, .c, .d, .e, .g], [.a, .d, .e, .f, .g], [.a, .e, .f, .g]] := by decide
theorem test_lit_segments_named : litSegments defaultParams.segMinus = [.g] ∧
    litSegments defaultParams.segDegree = [.a, .b, .f, .g] ∧ litSegments defaultParams.segCelsius = [.a, .d, .e, .f] ∧
    litSegments defaultParams.segOff = [] ∧ pointLit 0xCF = true := by decide

/-! ### The display (V3) -/

theorem test_setseg_under_dot : shown (exec (.setseg 2 0x40) (startAt 0x04 0)) =
    some ([.wr 10 0xC0], none, [0, 0, 0x40, 0, 0, 0, 0, 0], 0x04, 0) := by decide
theorem test_setseg_drops_bit7 : shown (exec (.setseg 7 0xFF) State.reset) =
    some ([.wr 0 0x7F], none, [0, 0, 0, 0, 0, 0, 0, 0x7F], 0, 0) := by decide
theorem test_setdig_f : shown (exec (.setdig 0 15) State.reset) =
    some ([.wr 14 0x71], none, [0x71, 0, 0, 0, 0, 0, 0, 0], 0, 0) := by decide
theorem test_setdig_blank : shown (exec (.setdig 1 16) (startWith 1 0x66 0 0)) =
    some ([.wr 12 0x00], none, List.replicate 8 0, 0, 0) := by decide
theorem test_doton : shown (exec (.doton 3) State.reset) =
    some ([.wr 8 0x80], none, List.replicate 8 0, 0x08, 0) := by decide
theorem test_doton_again : traceOf (exec (.doton 3) (startAt 0x08 0)) = some [.wr 8 0x80] := by decide
theorem test_dotoff : shown (exec (.dotoff 3) (startWith 3 0x6D 0x08 0)) =
    some ([.wr 8 0x6D], none, [0, 0, 0, 0x6D, 0, 0, 0, 0], 0x00, 0) := by decide
theorem test_setdots : shown (exec (.setdots 0x81) State.reset) =
    some ([.wr 14 0x80, .wr 12 0, .wr 10 0, .wr 8 0, .wr 6 0, .wr 4 0, .wr 2 0, .wr 0 0x80], none,
      List.replicate 8 0, 0x81, 0) := by decide
theorem test_refresh : traceOf (exec .refresh (startWith 1 0x40 0x02 0)) =
    some [.wr 14 0, .wr 12 0xC0, .wr 10 0, .wr 8 0, .wr 6 0, .wr 4 0, .wr 2 0, .wr 0 0] := by decide
theorem test_clear_keeps_cursor : shown (exec .clear (startWith 0 0x6D 0x01 3)) =
    some ([.clr], none, List.replicate 8 0, 0, 3) := by decide
theorem test_setcur : shown (exec (.setcur 2) State.reset) = some ([], none, List.replicate 8 0, 0, 2) := by decide
theorem test_setcur_ignored : shown (exec (.setcur 8) (startAt 0 3)) =
    some ([], none, List.replicate 8 0, 0, 3) := by decide

/-! ### The formatter (V4, V5, source examples S4 to S7) -/

theorem test_printu8_ff : shown (exec (.printu8 255 16 2 1) State.reset) =
    some ([.wr 14 0x71, .wr 12 0x71], none, [0x71, 0x71, 0, 0, 0, 0, 0, 0], 0, 0) := by decide
theorem test_printu8_cut_run : shown (exec (.printu8 123 10 3 1) (startAt 0 6)) =
    some ([.wr 2 0x40, .wr 0 0x40], none, [0, 0, 0, 0, 0, 0, 0x40, 0x40], 0, 6) := by decide
theorem test_printu16_overflow : traceOf (exec (.printu16 1000 10 3 1) State.reset) =
    some [.wr 14 0x40, .wr 12 0x40, .wr 10 0x40] := by decide
theorem test_printu16_at_cursor : segOf (exec (.printu16 65535 10 5 1) (startAt 0 3)) =
    some [0, 0, 0, 0x6D, 0x4F, 0x6D, 0x6D, 0x7D] := by decide
theorem test_printu32_five : traceOf (exec (.printu32 5 10 3 1) State.reset) =
    some [.wr 14 0x6D, .wr 12 0x00, .wr 10 0x00] := by decide
theorem test_printu32_nine_digits : segOf (exec (.printu32 100000000 10 8 1) State.reset) =
    some (List.replicate 8 0x40) := by decide
theorem test_prints8_most_negative : traceOf (exec (.prints8 0x80 10 4) State.reset) =
    some [.wr 14 0x7F, .wr 12 0x5B, .wr 10 0x06, .wr 8 0x00, .wr 8 0x40] := by decide
theorem test_prints8_under_dot : traceOf (exec (.prints8 0xFB 10 4) (startAt 0x02 0)) =
    some [.wr 14 0x6D, .wr 12 0x80, .wr 10 0x00, .wr 8 0x00, .wr 12 0xC0] := by decide
theorem test_prints16_most_negative : segOf (exec (.prints16 0x8000 10 6) State.reset) =
    some [0x7F, 0x7D, 0x07, 0x5B, 0x4F, 0x40, 0, 0] := by decide
theorem test_prints32_minus_five : traceOf (exec (.prints32 0xFFFFFFFB 10 4) State.reset) =
    some [.wr 14 0x6D, .wr 12 0x00, .wr 10 0x00, .wr 8 0x00, .wr 12 0x40] := by decide
theorem test_prints32_no_room_for_sign : segOf (exec (.prints32 10000000 10 8) State.reset) =
    some (List.replicate 8 0x40) := by decide
/-- The counts of 95_test_vectors.md, 2.4. -/
theorem test_numDigits : numDigits 9 0 10 = 1 ∧ numDigits 9 99999999 10 = 8 ∧ numDigits 9 100000000 10 = 9 ∧
    numDigits 9 4294967295 2 = 9 ∧ numDigits 9 255 255 = 2 ∧ numDigits 9 4294967295 16 = 8 := by decide

/-! ### Another admissible set of parameters (R8) -/

/-- A build with another glyph for 7, another minus glyph, the codes of red and green exchanged, and the literal cap 8. -/
def otherParams : Params :=
  { defaultParams with segTab := defaultSegTab.set 7 0x27, segMinus := 0x01, colorRed := 0b10, colorGreen := 0b01, ndCap := 8 }

theorem otherParams_admissible : otherParams.Admissible where
  entry0 := rfl
  entry15 := rfl
  tabClean := by decide
  hexShapes := by decide
  offZero := rfl
  minusClean := rfl
  degreeClean := rfl
  celsiusClean := rfl
  colors := by decide
  cap := .inl rfl

/-- A table with one shape for all of A to F is not admissible (R82). -/
theorem test_equal_hex_shapes_refused : ¬ ({ defaultParams with segTab :=
    #v[0x3F, 0x06, 0x5B, 0x4F, 0x66, 0x6D, 0x7D, 0x07, 0x7F, 0x6F, 0x71, 0x71, 0x71, 0x71, 0x71, 0x71] } : Params).Admissible :=
  fun h => absurd (h.hexShapes 10 15 (by decide) (by decide) (by decide)) (by decide)

/-- The reset state of that build. -/
def otherReset : State := { State.reset with params := otherParams }

theorem test_other_glyph : segOf (exec (.setdig 0 7) otherReset) = some [0x27, 0, 0, 0, 0, 0, 0, 0] ∧
    (nextOf (exec (.enc 7) otherReset)).map State.response = some (some 0x27) := by decide
theorem test_other_minus : traceOf (exec (.prints8 0xFB 10 2) otherReset) = some [.wr 14 0x6D, .wr 12 0x00, .wr 12 0x01] := by
  decide
/-- The example of R138: the literal cap shows the low eight digits where the spec's cap shows minus glyphs. -/
theorem test_cap_eight : segOf (exec (.printu32 100000000 10 8 1) otherReset) = some (List.replicate 8 0x3F) := by decide
theorem test_other_colors : assemble otherParams "SETLED 0, red" = .ok [.setled 0 2] := by decide
theorem test_reset_event_keeps_params : (nextOf (step { otherReset with pending := [.reset] })).map State.params =
    some otherParams := by decide

/-! ### LEDs and keys (V6, V7) -/

theorem test_setled : traceOf (exec (.setled 7 2) State.reset) = some [.wr 1 0x02] := by decide
theorem test_setled_bad_color : traceOf (exec (.setled 0 3) State.reset) = some [] := by decide
theorem test_ledson : traceOf (exec (.ledson 0xA5 1) State.reset) =
    some [.wr 15 0x01, .wr 11 0x01, .wr 5 0x01, .wr 1 0x01] := by decide
theorem test_ledsoff : traceOf (exec (.ledsoff 0x81) State.reset) = some [.wr 15 0x00, .wr 1 0x00] := by decide
/-- The answered word is free, so the response is tested on the body of the command. -/
theorem test_getbtn_decodes : (readButtons 0x00100001 State.reset).response = some 0x82 ∧
    (readButtons 0x00100001 State.reset).trace = [.rdk 0x00100001] := by decide
theorem test_getbtn_ignores_stray_bits : decodeKeys 0xEEEEEEEE = 0x00 ∧ decodeKeys 0x00000002 = 0x00 ∧
    decodeKeys 0x01010101 = 0xF0 := by decide

/-! ### Steps that are no command -/

theorem test_reset_event : (nextOf (step { startWith 0 0x6D 0x01 3 with pending := [.reset], chip := [(14, 0xED)] })).map
    (fun t => (t.seg.toList, t.dots, t.cur, t.chip == [], t.pending)) =
    some (List.replicate 8 0, 0, 0, true, []) := by decide
theorem test_reset_inside : (nextOf (step { State.reset with pending := [.resetDuring 0x2400000000000081 2] })).map
    (fun t => (t.trace, t.dots, t.chip)) = some ([.wr 14 0x80, .wr 12 0x00], 0, []) := by decide
theorem test_reserved_word : (nextOf (step { startAt 0x01 3 with pending := [.command 0x3300000000000000] })).map
    (fun t => (t.trace, t.response, t.dots, t.cur)) = some ([], none, 0x01, 3) := by decide

/-! ### Witnesses: the hypotheses of every obligation that has some can be met, at a boundary where there is one -/

theorem witness_decoder_accepts : opField 0x4300000000000000 ∈ opcodes ∧ opField 0x4400000000000000 ∉ opcodes := by decide
theorem witness_unused_bits : (0x2600000000000000 : CommandWord) &&& usedBits (opField 0x2600000000000000) =
    0x26FFFFFFFFFFFFFF &&& usedBits (opField 0x26FFFFFFFFFFFFFF) := by decide
theorem witness_decode_of_encode : (Instr.prints8 0xFF 255 255).wellFormed = true := by decide
theorem witness_encode_of_decode : decode 0x360A04FFFFFFFFFB = .ok (.prints32 0xFFFFFFFB 10 4) := by decide
theorem witness_assembled : ∃ cmds, assemble defaultParams "PRINTS8 -128, 10, 4" = .ok cmds ∧ Instr.prints8 0x80 10 4 ∈ cmds :=
  ⟨[.prints8 0x80 10 4], by decide, by decide⟩
theorem witness_step_performs : (presentWord 0x2000000000004002 State.reset).pending = .command 0x2000000000004002 :: [] ∧
    decode 0x2000000000004002 = .ok (.setseg 2 0x40) := by decide
theorem witness_reserved : (presentWord 0x3700000000000000 State.reset).pending = .command 0x3700000000000000 :: [] ∧
    opField 0x3700000000000000 ∉ opcodes := by decide
theorem witness_idle : State.reset.pending = [] := by decide
theorem witness_reset_event : ({ startAt 1 3 with pending := [.reset, .reset] } : State).pending = .reset :: [.reset] := by
  decide
theorem witness_reset_inside : ({ State.reset with pending := [.resetDuring 0x2600000000000000 0] } : State).pending =
    .resetDuring 0x2600000000000000 0 :: [] := by decide
theorem witness_program : ∀ i ∈ [Instr.clear, .printu8 255 10 3 1, .getbtn], i.wellFormed = true := by decide

/-- A state with a dot, a digit, a red LED and a word at the port. -/
def litState : State :=
  { startWith 0 0x6D 0x01 7 with chip := [(14, 0xED), (15, 0x01)], pending := [.command 0x2600000000000000] }

theorem litState_safe : Safe litState where
  segments := by unfold SegmentsClean; decide
  cursor := by unfold CursorInRange; decide
  mirror := by
    intro p v h
    fin_cases p
    · cases h; decide
    all_goals cases h
  leds := by
    intro l v h
    fin_cases l
    · cases h; decide
    all_goals cases h
  canonical := by decide
  params := defaultParams_admissible

theorem witness_step_keeps_safe : ∃ t, Safe litState ∧ step litState = .next t := ⟨_, litState_safe, rfl⟩
theorem witness_invariants_before : SegmentsClean litState ∧ CursorInRange litState :=
  ⟨litState_safe.segments, litState_safe.cursor⟩
theorem witness_chip_image : ∃ t, exec (.setseg 7 0x7F) litState = .next t ∧ t.trace = [.wr 0 0x7F] := ⟨_, rfl, by decide⟩
theorem witness_dots_written : ∃ t, exec (.dotoff 0) litState = .next t ∧ t.dots ≠ litState.dots := ⟨_, rfl, by decide⟩
theorem witness_cursor_written : ∃ t, exec (.setcur 0) litState = .next t ∧ t.cur ≠ litState.cur := ⟨_, rfl, by decide⟩
theorem witness_segments_written : ∃ t, exec (.setdig 0 0) litState = .next t ∧ t.seg ≠ litState.seg :=
  ⟨_, rfl, by decide⟩
theorem witness_led_written : ∃ t, exec (.ledsoff 1) litState = .next t ∧
    Memory.read t.chip (ledAddr 0).val ≠ Memory.read litState.chip (ledAddr 0).val := ⟨_, rfl, by decide⟩
theorem witness_response : ∃ t, exec (.swpp 7) litState = .next t ∧ t.response ≠ none := ⟨_, rfl, by decide⟩
theorem witness_write_to_digit : ∃ t, litState.params.Admissible ∧ exec (.setseg 7 0x7F) litState = .next t ∧
    .wr 0 0x7F ∈ t.trace := ⟨_, defaultParams_admissible, rfl, by decide⟩
theorem witness_write_to_led : ∃ t, litState.params.Admissible ∧ exec (.setled 7 2) litState = .next t ∧
    .wr 1 0x02 ∈ t.trace := ⟨_, defaultParams_admissible, rfl, by decide⟩
/-- The scan counts differ: only `GETBTN` needs the same answer on both sides. -/
theorem witness_register_triple : SameRegisters litState { litState with chip := [], trace := [.clr], scans := 5 } ∧
    litState.params = ({ litState with chip := [], trace := [.clr], scans := 5 } : State).params ∧
    (Instr.setseg 7 0x7F = .getbtn → Config.keyScan litState.scans = Config.keyScan 5) :=
  ⟨⟨rfl, rfl, rfl⟩, rfl, fun h => nomatch h⟩
theorem witness_register_triple_getbtn : SameRegisters litState { litState with chip := [], trace := [.clr] } ∧
    (Instr.getbtn = .getbtn → Config.keyScan litState.scans =
      Config.keyScan ({ litState with chip := [], trace := [.clr] } : State).scans) :=
  ⟨⟨rfl, rfl, rfl⟩, fun _ => rfl⟩
theorem witness_ignores_display : Instr.getbtn ∈ [Instr.enc 0, .swpp 0, .swpl 0, .swpb 0, .setled 0 0, .ledson 0 0, .ledsoff 0,
    .getbtn] ∧ litState.params = State.reset.params ∧ litState.seg ≠ State.reset.seg ∧
    (Instr.getbtn = .getbtn → Config.keyScan litState.scans = Config.keyScan State.reset.scans) :=
  ⟨by decide, rfl, by decide, fun _ => rfl⟩
theorem witness_coherent : ∃ t, Coherent litState 0 ∧ exec (.printu8 9 10 1 1) litState = .next t :=
  ⟨_, by unfold Coherent; decide, rfl⟩
theorem witness_enc_ranges : (15 : Byte).toNat ≤ 15 ∧ 16 ≤ (16 : Byte).toNat := by decide
theorem witness_swap_ranges : Instr.swpl 7 ∈ [Instr.swpp 7, .swpl 7] ∧ (7 : Byte).toNat ≤ 7 ∧ 8 ≤ (8 : Byte).toNat := by
  decide
theorem witness_position_in_range : (7 : Byte).toNat ≤ 7 ∧ (0 : Byte).toNat ≤ 7 := by decide
theorem witness_index_out_of_range : 8 ≤ (8 : Byte).toNat ∧
    Instr.setled 8 1 ∈ [Instr.swpp 8, .swpl 8, .setseg 8 1, .setdig 8 1, .doton 8, .dotoff 8, .setcur 8, .setled 8 1] := by
  decide
theorem witness_overflow_check : overflows 0 (numDigits 9 99999999 10 + 0) 8 = false ∧
    99999999 < 10 ^ (min 8 (8 - 0) - 0) ∧ overflows 0 (numDigits 9 100000000 10 + 0) 8 = true ∧
    ¬ 100000000 < 10 ^ (min 8 (8 - 0) - 0) := by decide
theorem witness_overflow_check_cap_eight : 2 ≤ 10 ∧ (8 = 9 ∨ 8 = 8 ∧ (1 ≤ 0 ∨ 99999999 < 10 ^ 8 ∨ 8 < 8 ∨ 1 ≤ 0)) ∧
    overflows 0 (numDigits 8 99999999 10 + 0) 8 = false := by decide
theorem witness_overflow_corner : 2 ≤ 10 ∧ 10 ^ 8 ≤ 100000000 ∧ 8 ≤ 8 ∧ overflows 0 (numDigits 8 100000000 10) 8 = false ∧
    overflows 0 (numDigits 9 100000000 10) 8 = true := by decide
theorem witness_magnitude : (128 : Nat) < 2 ^ WidthClass.w8.bits ∧ magnitude .w8 128 = 128 ∧ signedValue .w8 128 = -128 := by
  decide
theorem witness_small_radix : (1 : Byte).toNat < 2 ∧ (0 : Byte).toNat < 2 := by decide
theorem witness_admissible : (startAt 0 7).params.Admissible ∧ State.reset.params.Admissible ∧ otherReset.params.Admissible :=
  ⟨defaultParams_admissible, defaultParams_admissible, otherParams_admissible⟩
theorem witness_unsigned_fits : 2 ≤ (2 : Byte).toNat ∧ (startAt 0 7).params.Admissible ∧
    overflows (startAt 0 7).cur.toNat (numDigits (startAt 0 7).params.ndCap (cutValue .w8 1) (2 : Byte).toNat)
      (1 : Byte).toNat = false := ⟨by decide, defaultParams_admissible, by decide⟩
theorem witness_unsigned_overflow : 2 ≤ (2 : Byte).toNat ∧ (startAt 0 7).params.Admissible ∧
    overflows (startAt 0 7).cur.toNat (numDigits (startAt 0 7).params.ndCap (cutValue .w8 2) (2 : Byte).toNat)
      (2 : Byte).toNat = true := ⟨by decide, defaultParams_admissible, by decide⟩
theorem witness_signed_overflow : 2 ≤ (10 : Byte).toNat ∧ (startAt 0 7).params.Admissible ∧
    overflows (startAt 0 7).cur.toNat
      (numDigits (startAt 0 7).params.ndCap (magnitude .w8 (cutValue .w8 0xFB)) (10 : Byte).toNat + 1)
      (4 : Byte).toNat = true := ⟨by decide, defaultParams_admissible, by decide⟩
theorem witness_signed_fits : 2 ≤ (10 : Byte).toNat ∧ (startAt 0 6).params.Admissible ∧
    1 = numDigits (startAt 0 6).params.ndCap (magnitude .w8 (cutValue .w8 0xFB)) (10 : Byte).toNat ∧
    overflows (startAt 0 6).cur.toNat (1 + 1) (2 : Byte).toNat = false :=
  ⟨by decide, defaultParams_admissible, by decide, by decide⟩
/-- A zero with pad 1 under the default cap, and a value below the corner under the cap 8. -/
theorem witness_unsigned_denotes : 2 ≤ (10 : Byte).toNat ∧ State.reset.params.Admissible ∧
    1 = numDigits State.reset.params.ndCap (cutValue .w16 0) (10 : Byte).toNat ∧
    overflows State.reset.cur.toNat 1 (1 : Byte).toNat = false ∧ (cutValue .w16 0 ≠ 0 ∨ 1 ≤ (1 : Byte).toNat) ∧
    (State.reset.params.ndCap = 9 ∨ cutValue .w16 0 < (10 : Byte).toNat ^ 8) :=
  ⟨by decide, defaultParams_admissible, by decide, by decide, by decide, by decide⟩
theorem witness_unsigned_denotes_cap_eight : otherReset.params.Admissible ∧
    8 = numDigits otherReset.params.ndCap (cutValue .w32 99999999) (10 : Byte).toNat ∧
    overflows otherReset.cur.toNat 8 (8 : Byte).toNat = false ∧ cutValue .w32 99999999 < (10 : Byte).toNat ^ 8 :=
  ⟨otherParams_admissible, by decide, by decide, by decide⟩
theorem witness_erases_sign : ∃ t, State.reset.params.Admissible ∧ exec (.printSigned .w8 0xFB 10 4) State.reset = .next t ∧
    isNegative .w8 (cutValue .w8 5) = false ∧ 1 = numDigits State.reset.params.ndCap (cutValue .w8 5) (10 : Byte).toNat ∧
    overflows State.reset.cur.toNat (1 + 1) (4 : Byte).toNat = false ∧ t.seg[1] = State.reset.params.segMinus :=
  ⟨_, defaultParams_admissible, rfl, by decide, by decide, by decide, by decide⟩
theorem witness_setled : (7 : Byte).toNat ≤ 7 ∧ (2 : Byte).toNat ≤ 2 := by decide
theorem witness_colors : (2 : Byte).toNat ≤ 2 ∧ 3 ≤ (3 : Byte).toNat ∧ Instr.ledson 1 3 ∈ [Instr.setled 1 3, .ledson 1 3] := by
  decide
theorem witness_setdig : otherReset.params.Admissible ∧ (7 : Byte).toNat ≤ 7 ∧ 8 ≤ (8 : Byte).toNat :=
  ⟨otherParams_admissible, by decide, by decide⟩
theorem witness_equal_commands : otherReset.params.Admissible ∧ (15 : Byte).toNat ≤ 15 :=
  ⟨otherParams_admissible, by decide⟩
theorem witness_no_stray_bits : (0x00100001#32 : KeyWord) &&& 0xEEEEEEEE#32 = 0#32 := by decide
theorem witness_degraded : State.reset.params.Admissible ∧ CursorInRange State.reset ∧
    Degraded.noop ∈ degraded (.setled 8 3) State.reset ∧ degraded (.setcur 7) State.reset = [] :=
  ⟨defaultParams_admissible, by unfold CursorInRange; decide, by decide, by decide⟩
/-- One print can overflow and lose positions at the edge of the display, or show a blank digit and lose positions (R173); the
radix guard comes before the overflow check. -/
theorem witness_degraded_together :
    degraded (.printu8 200 10 255 1) (startAt 0 6) = [.overflow, .noop] ∧
    degraded (.printu8 35 36 9 1) State.reset = [.blank, .noop] ∧
    degraded (.printu8 200 1 1 1) (startAt 0 7) = [.noop] := by decide

end Sys2Proof.Tests
end

section
/-! SUPPORT. The segment encoder (R80 to R82, R85): the glyph on each side of the guard, its dot bit, the source's two
entries, and the default table. -/

namespace Sys2Proof.Machine

theorem glyph_of_lt (P : Params) {d : Nat} (h : d < 16) : glyph P d = P.segTab[d] := dif_pos h

theorem glyph_of_ge (P : Params) {d : Nat} (h : 16 ≤ d) : glyph P d = P.segOff := dif_neg (by omega)

theorem glyph_blank {P : Params} (hP : P.Admissible) {d : Nat} (h : 16 ≤ d) : glyph P d = 0x00 :=
  (glyph_of_ge P h).trans hP.offZero

theorem glyph_zero {P : Params} (hP : P.Admissible) : glyph P 0 = 0b00111111 :=
  (glyph_of_lt P (by omega)).trans hP.entry0

theorem glyph_fifteen {P : Params} (hP : P.Admissible) : glyph P 15 = 0b01110001 :=
  (glyph_of_lt P (by omega)).trans hP.entry15

/-- A glyph is equal to its own low seven bits, so its dot bit is clear (R85). -/
theorem glyph_bit7 {P : Params} (hP : P.Admissible) (d : Nat) : (glyph P d).getLsbD 7 = false := by
  rw [← glyph_clean hP d]
  exact masked_bit7 _

theorem litSegments_glyph_zero {P : Params} (hP : P.Admissible) :
    litSegments (glyph P 0) = [.a, .b, .c, .d, .e, .f] := by
  rw [glyph_zero hP]
  decide

theorem litSegments_glyph_fifteen {P : Params} (hP : P.Admissible) :
    litSegments (glyph P 15) = [.a, .e, .f, .g] := by
  rw [glyph_fifteen hP]
  decide

theorem glyph_defaultParams (d : Fin 16) : glyph defaultParams d.val = defaultSegTab[d.val] :=
  glyph_of_lt defaultParams d.isLt

theorem defaultSegTab_ne_zero : ∀ d : Fin 16, defaultSegTab[d.val] ≠ 0x00 := by decide

theorem defaultSegTab_inj : ∀ d e : Fin 16, defaultSegTab[d.val] = defaultSegTab[e.val] → d = e := by decide

/-- Settles O30: below 16 the laws are those of an admissible table, from 16 on the glyph is blank; the default table is
checked entry by entry. -/
theorem glyphsHaveNoDotBit : Obligations.GlyphsHaveNoDotBit := by
  unfold Obligations.GlyphsHaveNoDotBit
  refine ⟨fun P d hP => ?admissible, defaultParams_admissible, fun d e => ?default⟩
  case admissible =>
    exact ⟨glyph_bit7 hP d, glyph_blank hP, glyph_zero hP, glyph_fifteen hP, litSegments_glyph_zero hP,
      litSegments_glyph_fifteen hP, fun _ hd hd' he he' h => glyph_hex_inj hP hd hd' he he' h⟩
  case default =>
    rw [glyph_defaultParams, glyph_defaultParams]
    exact ⟨defaultSegTab_ne_zero d, defaultSegTab_inj d e⟩

end Sys2Proof.Machine
end

section
/-! SUPPORT. The registers (R21 to R26): which registers each command may write and which commands respond, said once by
`RegisterEffect`; and that the register triple decides what a command does (R24). -/

namespace Sys2Proof.Machine

@[simp] theorem printUnsigned_dots (v r m pad : Nat) (s : State) : (printUnsigned v r m pad s).dots = s.dots :=
  printUnsigned_keeps (P := fun t => t.dots = s.dots) (by simp) v r m pad s rfl
@[simp] theorem printUnsigned_cur (v r m pad : Nat) (s : State) : (printUnsigned v r m pad s).cur = s.cur :=
  printUnsigned_keeps (P := fun t => t.cur = s.cur) (by simp) v r m pad s rfl
@[simp] theorem printUnsigned_response (v r m pad : Nat) (s : State) :
    (printUnsigned v r m pad s).response = s.response :=
  printUnsigned_keeps (P := fun t => t.response = s.response) (by simp) v r m pad s rfl

@[simp] theorem printSigned_dots (W : WidthClass) (x r m : Nat) (s : State) : (printSigned W x r m s).dots = s.dots :=
  printSigned_keeps (P := fun t => t.dots = s.dots) (by simp) W x r m s rfl
@[simp] theorem printSigned_cur (W : WidthClass) (x r m : Nat) (s : State) : (printSigned W x r m s).cur = s.cur :=
  printSigned_keeps (P := fun t => t.cur = s.cur) (by simp) W x r m s rfl
@[simp] theorem printSigned_response (W : WidthClass) (x r m : Nat) (s : State) :
    (printSigned W x r m s).response = s.response :=
  printSigned_keeps (P := fun t => t.response = s.response) (by simp) W x r m s rfl

theorem writeLeds_registers (mask v : Byte) (s : State) : SameRegisters s (writeLeds mask v s) :=
  ⟨writeLeds_seg .., writeLeds_dots .., writeLeds_cur ..⟩

/-- What a command may do to the registers and the response, by the kinds of command (R21 to R23, R25, R26). -/
inductive RegisterEffect (i : Instr) (s t : State) : Prop where
  /-- A look-up or `GETBTN`: it may respond, and no register changes. -/
  | answer (kind : (∃ a, i = .enc a) ∨ (∃ a, i = .swpp a) ∨ (∃ a, i = .swpl a) ∨ (∃ a, i = .swpb a) ∨ i = .getbtn)
      (registers : SameRegisters s t)
  /-- `REFRESH` and the LED commands: transactions only. -/
  | transactions (registers : SameRegisters s t) (response : t.response = s.response)
  /-- `SETSEG`, `SETDIG` and the prints write `SEG`. -/
  | segments (kind : (∃ a b, i = .setseg a b) ∨ (∃ a b, i = .setdig a b) ∨
        (∃ W v r m p, i = .printUnsigned W v r m p) ∨ (∃ W v r m, i = .printSigned W v r m))
      (dots : t.dots = s.dots) (cur : t.cur = s.cur) (response : t.response = s.response)
  /-- `DOTON`, `DOTOFF` and `SETDOTS` write `DOTS`. -/
  | dots (kind : (∃ a, i = .doton a) ∨ (∃ a, i = .dotoff a) ∨ (∃ a, i = .setdots a))
      (seg : t.seg = s.seg) (cur : t.cur = s.cur) (response : t.response = s.response)
  /-- `CLEAR` writes `SEG` and `DOTS`. -/
  | clear (kind : i = .clear) (cur : t.cur = s.cur) (response : t.response = s.response)
  /-- `SETCUR` writes `CUR`. -/
  | cursor (kind : ∃ a, i = .setcur a)
      (seg : t.seg = s.seg) (dots : t.dots = s.dots) (response : t.response = s.response)

theorem printUnsigned_registerEffect (W : WidthClass) (v : BitVec 32) (r m p : Byte) (s : State) :
    RegisterEffect (.printUnsigned W v r m p) s (body (.printUnsigned W v r m p) s) := by
  rw [body_printUnsigned]
  exact .segments (.inr (.inr (.inl ⟨W, v, r, m, p, rfl⟩))) (printUnsigned_dots ..) (printUnsigned_cur ..)
    (printUnsigned_response ..)

theorem printSigned_registerEffect (W : WidthClass) (v : BitVec 32) (r m : Byte) (s : State) :
    RegisterEffect (.printSigned W v r m) s (body (.printSigned W v r m) s) := by
  rw [body_printSigned]
  exact .segments (.inr (.inr (.inr ⟨W, v, r, m, rfl⟩))) (printSigned_dots ..) (printSigned_cur ..)
    (printSigned_response ..)

theorem body_registerEffect (i : Instr) (s : State) : RegisterEffect i s (body i s) := by
  cases i with
  | enc a => exact .answer (.inl ⟨a, rfl⟩) ⟨rfl, rfl, rfl⟩
  | swpp a => simp only [body]; split <;> exact .answer (.inr (.inl ⟨a, rfl⟩)) ⟨rfl, rfl, rfl⟩
  | swpl a => simp only [body]; split <;> exact .answer (.inr (.inr (.inl ⟨a, rfl⟩))) ⟨rfl, rfl, rfl⟩
  | swpb a => exact .answer (.inr (.inr (.inr (.inl ⟨a, rfl⟩)))) ⟨rfl, rfl, rfl⟩
  | getbtn => exact .answer (.inr (.inr (.inr (.inr rfl)))) ⟨rfl, rfl, rfl⟩
  | setseg a b => exact .segments (.inl ⟨a, b, rfl⟩) (setSeg_dots ..) (setSeg_cur ..) (setSeg_response ..)
  | setdig a b => exact .segments (.inr (.inl ⟨a, b, rfl⟩)) (setSeg_dots ..) (setSeg_cur ..) (setSeg_response ..)
  | printu8 v r m p => exact printUnsigned_registerEffect .w8 v r m p s
  | printu16 v r m p => exact printUnsigned_registerEffect .w16 v r m p s
  | printu32 v r m p => exact printUnsigned_registerEffect .w32 v r m p s
  | prints8 v r m => exact printSigned_registerEffect .w8 v r m s
  | prints16 v r m => exact printSigned_registerEffect .w16 v r m s
  | prints32 v r m => exact printSigned_registerEffect .w32 v r m s
  | doton a => simp only [body]; split <;> exact .dots (.inl ⟨a, rfl⟩) rfl rfl rfl
  | dotoff a => simp only [body]; split <;> exact .dots (.inr (.inl ⟨a, rfl⟩)) rfl rfl rfl
  | setdots a => exact .dots (.inr (.inr ⟨a, rfl⟩)) (renderAll_seg _) (renderAll_cur _) (renderAll_response _)
  | refresh => exact .transactions ⟨renderAll_seg s, renderAll_dots s, renderAll_cur s⟩ (renderAll_response s)
  | clear => exact .clear rfl rfl rfl
  | setcur a => simp only [body]; split <;> exact .cursor ⟨a, rfl⟩ rfl rfl rfl
  | setled a b =>
    simp only [body]
    split
    · split <;> exact .transactions ⟨rfl, rfl, rfl⟩ rfl
    · exact .transactions ⟨rfl, rfl, rfl⟩ rfl
  | ledson a b =>
    simp only [body]
    split
    · exact .transactions (writeLeds_registers ..) (writeLeds_response ..)
    · exact .transactions ⟨rfl, rfl, rfl⟩ rfl
  | ledsoff a => exact .transactions (writeLeds_registers ..) (writeLeds_response ..)

/-- The effect of a command that ends in `t`; the response counts from none (R14). -/
theorem exec_registerEffect {i : Instr} {s t : State} (h : exec i s = .next t) :
    RegisterEffect i (beginCommand s) t := by
  obtain rfl := next_inj ((exec_eq_body i s).symm.trans h)
  exact body_registerEffect i _

/-- Settles O19: of the kinds of command, only the dot commands and `CLEAR` may write `DOTS`. -/
theorem dotsWrittenOnlyByDotCommands : Obligations.DotsWrittenOnlyByDotCommands := by
  intro i s t h hne
  cases exec_registerEffect h with
  | answer _ registers => exact absurd registers.dots hne
  | transactions registers _ => exact absurd registers.dots hne
  | segments _ dots _ _ => exact absurd dots hne
  | dots kind _ _ _ =>
    obtain on | off | set := kind
    exacts [.inl on, .inr (.inl off), .inr (.inr (.inl set))]
  | clear kind _ _ => exact .inr (.inr (.inr kind))
  | cursor _ _ dots _ => exact absurd dots hne

/-- Settles O20: of the kinds of command, only `SETCUR` may write `CUR`. -/
theorem cursorWrittenOnlyBySetcur : Obligations.CursorWrittenOnlyBySetcur := by
  intro i s t h hne
  cases exec_registerEffect h with
  | answer _ registers => exact absurd registers.cur hne
  | transactions registers _ => exact absurd registers.cur hne
  | segments _ _ cur _ => exact absurd cur hne
  | dots _ _ cur _ => exact absurd cur hne
  | clear _ cur _ => exact absurd cur hne
  | cursor kind _ _ _ => exact kind

/-- Settles O21: of the kinds of command, only the segment writers and `CLEAR` may write `SEG`. -/
theorem segmentsWrittenOnlyByDisplayCommands : Obligations.SegmentsWrittenOnlyByDisplayCommands := by
  intro i s t h hne
  cases exec_registerEffect h with
  | answer _ registers => exact absurd registers.seg hne
  | transactions registers _ => exact absurd registers.seg hne
  | segments kind _ _ _ =>
    obtain seg | dig | print := kind
    exacts [.inl seg, .inr (.inl dig), .inr (.inr (.inr print))]
  | dots _ seg _ _ => exact absurd seg hne
  | clear kind _ _ => exact .inr (.inr (.inl kind))
  | cursor _ seg _ _ => exact absurd seg hne

/-- Settles O23: every kind of command but the look-ups and `GETBTN` leaves the response at none, where a command begins. -/
theorem responsesOnlyFromLookupsAndKeys : Obligations.ResponsesOnlyFromLookupsAndKeys := by
  intro i s t h hne
  cases exec_registerEffect h with
  | answer kind registers => exact ⟨kind, registers.seg, registers.dots, registers.cur⟩
  | transactions _ response => exact absurd response hne
  | segments _ _ _ response => exact absurd response hne
  | dots _ _ _ response => exact absurd response hne
  | clear _ _ response => exact absurd response hne
  | cursor _ _ _ response => exact absurd response hne

/-- Agreement on the core, the parameters of the build, and what the latest command emitted and responded (R24). -/
structure SameCore (s u : State) : Prop where
  registers : SameRegisters s u
  params : s.params = u.params
  trace : s.trace = u.trace
  response : s.response = u.response

theorem sameCore_beginCommand {s u : State} (hr : SameRegisters s u) (hp : s.params = u.params) :
    SameCore (beginCommand s) (beginCommand u) :=
  ⟨⟨hr.seg, hr.dots, hr.cur⟩, hp, rfl, rfl⟩

/-- Commands keep states that agree on the core in agreement, whatever the chip image, the port and the counters. -/
theorem body_sameCore (i : Instr) {s u : State} (hkey : i = .getbtn → Config.keyScan s.scans = Config.keyScan u.scans)
    (h : SameCore s u) : SameCore (body i s) (body i u) := by
  refine body_related (R := SameCore) ?read ?emit ?regs ?scan ?resp i s u hkey h
  case read =>
    rintro s u ⟨⟨hseg, hdots, hcur⟩, hp, -, -⟩
    exact ⟨hseg.symm, hdots.symm, hcur.symm, hp⟩
  case emit =>
    rintro x s u ⟨⟨hseg, hdots, hcur⟩, hp, ht, hr⟩
    exact ⟨⟨hseg, hdots, hcur⟩, hp, congrArg (· ++ [x]) ht, hr⟩
  case regs =>
    rintro s u seg dots cur ⟨-, hp, ht, hr⟩
    exact ⟨⟨rfl, rfl, rfl⟩, hp, ht, hr⟩
  case scan =>
    rintro s u ⟨⟨hseg, hdots, hcur⟩, hp, ht, hr⟩
    exact ⟨⟨hseg, hdots, hcur⟩, hp, ht, hr⟩
  case resp =>
    rintro v s u ⟨⟨hseg, hdots, hcur⟩, hp, ht, -⟩
    exact ⟨⟨hseg, hdots, hcur⟩, hp, ht, rfl⟩

/-- Settles O26: both runs begin in agreement on the core, and the body keeps it. -/
theorem registerTripleIsTheWholeCoreState : Obligations.RegisterTripleIsTheWholeCoreState := by
  intro i s u hr hp hkey
  have h := body_sameCore i (s := beginCommand s) (u := beginCommand u) hkey (sameCore_beginCommand hr hp)
  exact ⟨_, _, exec_eq_body i s, exec_eq_body i u, h.registers, h.trace, h.response⟩

end Sys2Proof.Machine
end

section
/-! SUPPORT. The chip image beside the registers (R27, R155): what a command does to one digit register and to one LED
register, said once. A digit register ends up showing the mirror, or it and its mirror are as before. -/

namespace Sys2Proof.Machine

/-! ### The digit registers -/

/-- From `s` to `t` the digit register of `p` came to show the mirror, or both are as before (R27). -/
def DigitFollows (p : Position) (s t : State) : Prop :=
  Coherent t p ∨
    Memory.read t.chip (digitAddr p).val = Memory.read s.chip (digitAddr p).val ∧ combined t p = combined s p

/-- Coherence, once there, stays (R27, R192). -/
theorem DigitFollows.coherent {p : Position} {s t : State} (h : DigitFollows p s t) (hs : Coherent s p) :
    Coherent t p := by
  obtain hcoh | ⟨hread, hcomb⟩ := h
  · exact hcoh
  · exact hread.trans (hs.trans (congrArg some hcomb.symm))

theorem DigitFollows.trans {p : Position} {s t u : State} (h : DigitFollows p s t) (h' : DigitFollows p t u) :
    DigitFollows p s u := by
  obtain hcoh | ⟨hread, hcomb⟩ := h
  · exact .inl (h'.coherent hcoh)
  · exact Or.imp_right (fun ⟨hread', hcomb'⟩ => ⟨hread'.trans hread, hcomb'.trans hcomb⟩) h'

/-- What is known of a digit register stays what the mirror says (R27). -/
theorem MirrorHolds.of_follows {s t : State} (h : ∀ p, DigitFollows p s t) (hs : MirrorHolds s) : MirrorHolds t := by
  intro p v hv
  obtain hcoh | ⟨hread, hcomb⟩ := h p
  · exact Option.some.inj (hv.symm.trans hcoh)
  · exact (hs p v (hread.symm.trans hv)).trans hcomb.symm

/-- One render covers every change of `SEG` and `DOTS` at its own position. -/
theorem render_digitFollows {q : Position} (s u : State) (hchip : u.chip = s.chip)
    (hcomb : ∀ p, p ≠ q → combined u p = combined s p) (p : Position) : DigitFollows p s (render q u) := by
  by_cases h : p = q
  · subst h
    exact .inl (Memory.read_write_same ..)
  · refine .inr ⟨?_, hcomb p h⟩
    rw [render_chip, hchip]
    exact Memory.read_write_other _ _ (mt digitAddr_inj.1 h)

theorem setSeg_digitFollows (p : Position) (pos : Nat) (g : Byte) (s : State) : DigitFollows p s (setSeg pos g s) := by
  refine setSeg_cases pos g s (fun _ => .inr ⟨rfl, rfl⟩) (fun h => ?_)
  refine render_digitFollows s { s with seg := s.seg.set pos (g &&& 0x7F#8) } rfl (fun q hq => ?_) p
  have hne : pos ≠ q.val := fun heq => hq (Fin.ext heq.symm)
  simp only [combined, Vector.getElem_set_ne _ _ hne]

/-- A new mask that agrees with `DOTS` in every other bit changes the combined byte of the rendered position alone. -/
theorem renderDots_digitFollows {q : Position} {d : Byte} {s : State}
    (hd : ∀ j : Nat, j < 8 → j ≠ q.val → d.getLsbD j = s.dots.getLsbD j) (p : Position) :
    DigitFollows p s (render q { s with dots := d }) := by
  refine render_digitFollows s { s with dots := d } rfl (fun p hp => ?_) p
  have hbit : bitOf d p.val = bitOf s.dots p.val := by
    apply BitVec.eq_of_getLsbD_eq
    intro j _
    rw [bitOf_getLsbD, bitOf_getLsbD, hd p.val p.isLt (mt Fin.ext hp)]
  simp only [combined, hbit]

theorem getLsbD_setBit_ne (b : Byte) {i j : Nat} (h : j ≠ i) : (b ||| (1#8 <<< i)).getLsbD j = b.getLsbD j := by
  rw [← BitVec.twoPow_eq, BitVec.getLsbD_or, BitVec.getLsbD_twoPow]
  simp [h.symm]

theorem getLsbD_clearBit_ne (b : Byte) {i j : Nat} (hj : j < 8) (h : j ≠ i) :
    (b &&& ~~~(1#8 <<< i)).getLsbD j = b.getLsbD j := by
  rw [← BitVec.twoPow_eq, BitVec.getLsbD_and, BitVec.getLsbD_not, BitVec.getLsbD_twoPow]
  simp [h.symm, hj]

theorem renderAll_coherent (p : Position) (s : State) : Coherent (renderAll s) p := by
  unfold Coherent
  rw [renderAll_read_digit]
  simp only [combined, renderAll_seg, renderAll_dots]

/-- After `CLEAR` every digit register holds zero, and so does the mirror. -/
theorem clear_coherent (p : Position) (s : State) : Coherent (body .clear s) p := by
  unfold Coherent
  simp only [body, chipClear_chip, Memory.read_cleared, (digitAddr p).isLt, if_true]
  simp [combined, bitOf]

theorem memWrite_led_digitFollows (p : Position) (l : LedIndex) (v : Byte) (s : State) :
    DigitFollows p s (memWrite (ledAddr l) v s) :=
  .inr ⟨Memory.read_write_other _ _ (digitAddr_ne_ledAddr p l), rfl⟩

theorem writeLeds_digitFollows (p : Position) (mask v : Byte) (s : State) : DigitFollows p s (writeLeds mask v s) := by
  refine .inr ⟨?_, by simp only [combined, writeLeds_seg, writeLeds_dots]⟩
  rw [writeLeds_read, if_neg]
  rintro ⟨l, -, h⟩
  exact digitAddr_ne_ledAddr p l h.symm

theorem body_digitFollows (p : Position) (i : Instr) (s : State) : DigitFollows p s (body i s) := by
  have hsame : DigitFollows p s s := .inr ⟨rfl, rfl⟩
  have hset : ∀ pos g t, DigitFollows p s t → DigitFollows p s (setSeg pos g t) :=
    fun pos g t ht => ht.trans (setSeg_digitFollows p pos g t)
  cases i with
  | enc | swpb | getbtn => exact .inr ⟨rfl, rfl⟩
  | swpp | swpl | setcur => simp only [body]; split <;> exact .inr ⟨rfl, rfl⟩
  | setseg | setdig => exact setSeg_digitFollows ..
  | doton a =>
    simp only [body]
    split
    · exact renderDots_digitFollows (fun _ _ hne => getLsbD_setBit_ne _ hne) p
    · exact hsame
  | dotoff a =>
    simp only [body]
    split
    · exact renderDots_digitFollows (fun _ hj hne => getLsbD_clearBit_ne _ hj hne) p
    · exact hsame
  | setdots | refresh => exact .inl (renderAll_coherent p _)
  | clear => exact .inl (clear_coherent p s)
  | printu8 | printu16 | printu32 => exact printUnsigned_keeps hset _ _ _ _ s hsame
  | prints8 | prints16 | prints32 => exact printSigned_keeps hset _ _ _ _ s hsame
  | setled a b =>
    simp only [body]
    split
    · split
      exacts [memWrite_led_digitFollows .., hsame]
    · exact hsame
  | ledson => simp only [body]; split; exacts [writeLeds_digitFollows .., hsame]
  | ledsoff => exact writeLeds_digitFollows ..

/-- Settles O28: a body leaves a digit register showing the mirror, or leaves both as they were. -/
theorem coherenceOnceEstablishedStays : Obligations.CoherenceOnceEstablishedStays := by
  intro i s t p hs h
  obtain rfl := next_inj ((exec_eq_body i s).symm.trans h)
  exact (body_digitFollows p i (beginCommand s)).coherent hs

/-! ### The LED registers -/

/-- From `s` to `t` the LED register of `l` came to hold a legal color byte, or it is as before (R155). -/
def LedFollows (l : LedIndex) (s t : State) : Prop :=
  (∃ v, legalColor v = true ∧ Memory.read t.chip (ledAddr l).val = some v) ∨
    Memory.read t.chip (ledAddr l).val = Memory.read s.chip (ledAddr l).val

theorem LedsLegal.of_follows {s t : State} (h : ∀ l, LedFollows l s t) (hs : LedsLegal s) : LedsLegal t := by
  intro l v hv
  obtain ⟨w, hlegal, hw⟩ | hread := h l
  · obtain rfl : w = v := Option.some.inj (hw.symm.trans hv)
    exact hlegal
  · exact hs l v (hread.symm.trans hv)

theorem render_read_led (l : LedIndex) (q : Position) (s : State) :
    Memory.read (render q s).chip (ledAddr l).val = Memory.read s.chip (ledAddr l).val :=
  Memory.read_write_other _ _ (digitAddr_ne_ledAddr q l).symm

theorem setSeg_read_led (l : LedIndex) (pos : Nat) (g : Byte) (s : State) :
    Memory.read (setSeg pos g s).chip (ledAddr l).val = Memory.read s.chip (ledAddr l).val :=
  setSeg_cases (P := fun t => Memory.read t.chip _ = _) pos g s (fun _ => rfl) (fun _ => render_read_led ..)

theorem renderAll_read_led (l : LedIndex) (s : State) :
    Memory.read (renderAll s).chip (ledAddr l).val = Memory.read s.chip (ledAddr l).val :=
  renderAll_read_other s (fun p => (digitAddr_ne_ledAddr p l).symm)

theorem memWrite_ledFollows (l k : LedIndex) {v : Byte} (hv : legalColor v = true) (s : State) :
    LedFollows l s (memWrite (ledAddr k) v s) := by
  unfold LedFollows
  rw [memWrite_chip, Memory.read_write]
  split
  exacts [.inl ⟨v, hv, rfl⟩, .inr rfl]

theorem writeLeds_ledFollows (l : LedIndex) (mask : Byte) {v : Byte} (hv : legalColor v = true) (s : State) :
    LedFollows l s (writeLeds mask v s) := by
  unfold LedFollows
  rw [writeLeds_read]
  split
  exacts [.inl ⟨v, hv, rfl⟩, .inr rfl]

theorem body_ledFollows (l : LedIndex) (i : Instr) {s : State} (hP : s.params.Admissible) :
    LedFollows l s (body i s) := by
  have hset : ∀ pos g t, Memory.read t.chip (ledAddr l).val = Memory.read s.chip (ledAddr l).val →
      Memory.read (setSeg pos g t).chip (ledAddr l).val = Memory.read s.chip (ledAddr l).val :=
    fun pos g t ht => (setSeg_read_led l pos g t).trans ht
  cases i with
  | enc | swpb | getbtn => exact .inr rfl
  | swpp | swpl | setcur => simp only [body]; split <;> exact .inr rfl
  | setseg | setdig => exact .inr (setSeg_read_led ..)
  | doton | dotoff => simp only [body]; split; exacts [.inr (render_read_led ..), .inr rfl]
  | setdots | refresh => exact .inr (renderAll_read_led ..)
  | clear => exact .inl ⟨0, by decide, by simp only [body, chipClear_chip, Memory.read_cleared, (ledAddr l).isLt, if_true]⟩
  | printu8 | printu16 | printu32 => exact .inr (printUnsigned_keeps hset _ _ _ _ s rfl)
  | prints8 | prints16 | prints32 => exact .inr (printSigned_keeps hset _ _ _ _ s rfl)
  | setled a b =>
    simp only [body]
    split
    · split
      exacts [memWrite_ledFollows l _ ‹_› s, .inr rfl]
    · exact .inr rfl
  | ledson => simp only [body]; split; exacts [writeLeds_ledFollows l _ ‹_› s, .inr rfl]
  | ledsoff => exact writeLeds_ledFollows l _ (colorOff_legal hP) s

end Sys2Proof.Machine
end

section
/-! SUPPORT. Safe states (R21, R23, R27, R155, R8): every command body keeps each part of the invariant, and so does a reset
event; a step is one of them. -/

namespace Sys2Proof.Machine

/-! ### The segment registers and the cursor -/

theorem setSeg_segmentsClean (pos : Nat) (g : Byte) (s : State) (h : SegmentsClean s) : SegmentsClean (setSeg pos g s) := by
  intro p
  rw [setSeg_seg]
  split
  exacts [masked_bit7 g, h p]

theorem SegmentsClean.of_zero {s : State} (h : s.seg = Vector.replicate 8 0) : SegmentsClean s := by
  intro p
  simp [h]

theorem SegmentsClean.of_seg_eq {s t : State} (h : t.seg = s.seg) (hs : SegmentsClean s) : SegmentsClean t := by
  unfold SegmentsClean
  rw [h]
  exact hs

theorem body_segmentsClean (i : Instr) {s : State} (h : SegmentsClean s) : SegmentsClean (body i s) := by
  cases body_registerEffect i s with
  | answer _ registers => exact h.of_seg_eq registers.seg
  | transactions registers _ => exact h.of_seg_eq registers.seg
  | segments kind _ _ _ =>
    obtain ⟨a, b, rfl⟩ | ⟨a, b, rfl⟩ | ⟨W, v, r, m, p, rfl⟩ | ⟨W, v, r, m, rfl⟩ := kind
    · exact setSeg_segmentsClean _ _ s h
    · exact setSeg_segmentsClean _ _ s h
    · rw [body_printUnsigned]
      exact printUnsigned_keeps setSeg_segmentsClean _ _ _ _ s h
    · rw [body_printSigned]
      exact printSigned_keeps setSeg_segmentsClean _ _ _ _ s h
  | dots _ seg _ _ => exact h.of_seg_eq seg
  | clear kind _ _ => subst kind; exact .of_zero rfl
  | cursor _ seg _ _ => exact h.of_seg_eq seg

theorem CursorInRange.of_cur_eq {s t : State} (h : t.cur = s.cur) (hs : CursorInRange s) : CursorInRange t := by
  unfold CursorInRange
  rw [h]
  exact hs

theorem body_cursorInRange (i : Instr) {s : State} (h : CursorInRange s) : CursorInRange (body i s) := by
  cases body_registerEffect i s with
  | answer _ registers => exact h.of_cur_eq registers.cur
  | transactions registers _ => exact h.of_cur_eq registers.cur
  | segments _ _ cur _ => exact h.of_cur_eq cur
  | dots _ _ cur _ => exact h.of_cur_eq cur
  | clear _ cur _ => exact h.of_cur_eq cur
  | cursor kind _ _ _ =>
    obtain ⟨a, rfl⟩ := kind
    simp only [body]
    split
    · next ha => exact ha
    · exact h

/-! ### The whole invariant -/

theorem body_canonical (i : Instr) {s : State} (h : Memory.wf s.chip = true) : Memory.wf (body i s).chip = true :=
  body_keeps (P := fun t => Memory.wf t.chip = true) (fun x _ ht => Memory.wf_apply x ht) (fun _ _ _ _ _ _ ht => ht) i s h

theorem body_params (i : Instr) (s : State) : (body i s).params = s.params := (body_host i s).2.2

theorem body_safe (i : Instr) {s : State} (h : Safe s) : Safe (body i s) where
  segments := body_segmentsClean i h.segments
  cursor := body_cursorInRange i h.cursor
  mirror := h.mirror.of_follows (fun p => body_digitFollows p i s)
  leds := h.leds.of_follows (fun l => body_ledFollows l i h.params)
  canonical := body_canonical i h.canonical
  params := (body_params i s).symm ▸ h.params

/-- The ports, the counters and the moves to come are no part of the invariant. -/
theorem Safe.of_registers {s t : State} (h : Safe s) (hr : SameRegisters s t) (hchip : t.chip = s.chip)
    (hparams : t.params = s.params) : Safe t where
  segments := h.segments.of_seg_eq hr.seg
  cursor := h.cursor.of_cur_eq hr.cur
  mirror := h.mirror.of_follows (fun p => .inr ⟨by rw [hchip], by simp only [combined, hr.seg, hr.dots]⟩)
  leds := h.leds.of_follows (fun l => .inr (by rw [hchip]))
  canonical := hchip.symm ▸ h.canonical
  params := hparams.symm ▸ h.params

/-- A state with zero registers and nothing known of the chip is safe under admissible parameters (R190, R191). -/
theorem Safe.of_cleared {s : State} (hseg : s.seg = Vector.replicate 8 0) (hcur : s.cur = 0) (hchip : s.chip = [])
    (hP : s.params.Admissible) : Safe s where
  segments := .of_zero hseg
  cursor := by simp [CursorInRange, hcur]
  mirror := fun p v hv => by simp [hchip] at hv
  leds := fun l v hv => by simp [hchip] at hv
  canonical := by rw [hchip]; rfl
  params := hP

theorem performWord_safe {w : CommandWord} {s t : State} (h : Safe s) (ht : performWord w s = .next t) : Safe t := by
  have hbegin : Safe (beginCommand s) := h.of_registers ⟨rfl, rfl, rfl⟩ rfl rfl
  obtain ⟨i, -, hi⟩ | ⟨-, hnoop⟩ := performWord_cases w s
  · obtain rfl := next_inj (hi.symm.trans ht)
    exact body_safe i hbegin
  · obtain rfl := next_inj (hnoop.symm.trans ht)
    exact hbegin

/-- Settles O17: the word taken from the port is no part of the invariant; a performed word keeps it by its body, and a reset
event, inside a command or not, leaves a cleared state. -/
theorem stepKeepsSafe : Obligations.StepKeepsSafe := by
  intro s t hs hstep
  have htaken : ∀ rest, Safe { s with pending := rest } := fun _ => hs.of_registers ⟨rfl, rfl, rfl⟩ rfl rfl
  obtain ⟨-, h⟩ | ⟨w, rest, u, -, hw, h⟩ | ⟨rest, -, h⟩ | ⟨w, done, rest, u, -, hw, h⟩ := step_cases s <;>
    obtain rfl := next_inj (h.symm.trans hstep)
  · exact hs
  · exact performWord_safe (htaken rest) hw
  · exact .of_cleared rfl rfl rfl hs.params
  · exact .of_cleared rfl rfl rfl (performWord_safe (htaken rest) hw).params

/-- Settles O16: the reset state is a cleared state with the default parameters. -/
theorem resetStateIsSafe : Obligations.ResetStateIsSafe := by
  refine ⟨.of_cleared rfl rfl rfl defaultParams_admissible, rfl, fun p => ?_, rfl, rfl, rfl, rfl, fun _ => rfl⟩
  exact Vector.getElem_replicate p.isLt

end Sys2Proof.Machine
end

section
/-! SUPPORT. Words, moves and runs (R28, R69, R190): a step takes the first move, so a run over the moves at the port is the
moves one after another; and the word of a well-formed command performs that command. -/

namespace Sys2Proof

theorem extractLsb'_setWidth_byte (a : Byte) : (a.setWidth 32).extractLsb' 0 8 = a := by
  ext i hi
  simp [show i < 32 by omega, hi]

theorem extractLsb'_append_low (a b : Byte) : ((b ++ a).setWidth 32).extractLsb' 0 8 = a := by
  ext i hi
  simp only [BitVec.getElem_extractLsb', BitVec.getLsbD_setWidth, BitVec.getLsbD_append]
  simp [show i < 32 by omega, hi]

theorem extractLsb'_append_high (a b : Byte) : ((b ++ a).setWidth 32).extractLsb' 8 8 = b := by
  ext i hi
  simp only [BitVec.getElem_extractLsb', BitVec.getLsbD_setWidth, BitVec.getLsbD_append]
  simp [show 8 + i < 32 by omega, hi]
theorem decode_encode (i : Instr) (h : i.wellFormed = true) : decode (encode i) = .ok i := by
  cases i with
  | refresh | clear | getbtn => simp [decode, encode, wordZ]
  | enc | swpp | swpl | swpb | doton | dotoff | setdots | setcur | ledsoff =>
    simp [decode, encode, wordA, extractLsb'_setWidth_byte]
  | setseg | setdig | setled | ledson =>
    simp [decode, encode, wordAB, extractLsb'_append_low, extractLsb'_append_high]
  | printu8 | printu16 | printu32 => simp [decode, encode, wordPU, valField_packWord h]
  | prints8 | prints16 | prints32 => simp [decode, encode, wordPS, valField_packWord h]

end Sys2Proof

namespace Sys2Proof.Machine

theorem performWord_of_decode {w : CommandWord} {i : Instr} (h : decode w = .ok i) (s : State) :
    performWord w s = exec i s := by
  simp only [performWord, h]

/-- Settles O7. -/
theorem stepPerformsTheDecodedCommand : Obligations.StepPerformsTheDecodedCommand := by
  intro s w rest i hp hd
  exact (step_move hp).trans (performWord_of_decode hd _)

/-- Settles O10: the step is the reset event on the state with the move taken. -/
theorem resetEventClearsTheCore : Obligations.ResetEventClearsTheCore := by
  intro s rest hp
  refine ⟨_, step_move hp, fun p => ?_, rfl, rfl, rfl, rfl, rfl, rfl, rfl, fun _ => rfl, fun _ => rfl⟩
  exact Vector.getElem_replicate p.isLt

/-- A run over the first moves at the port performs them in order; the moves behind them still wait (R28, R69). -/
theorem run_moves (moves rest : List HostMove) (s : State) :
    ∃ t, Host.Core.run Sys2Proof.core moves.length { s with pending := moves ++ rest } = .next { t with pending := rest } ∧
      performAllMoves moves s = .next t ∧ t.pending = s.pending := by
  induction moves generalizing s with
  | nil => exact ⟨s, rfl, rfl, rfl⟩
  | cons m moves ih =>
    obtain ⟨u, hu, hpending, hmoved⟩ := performMove_pending m s
    obtain ⟨t, hrun, hall, ht⟩ := ih u
    have hstep : step { s with pending := m :: moves ++ rest } = .next { u with pending := moves ++ rest } :=
      (step_move rfl).trans (hmoved _)
    refine ⟨t, (run_succ hstep).trans hrun, ?_, ht.trans hpending⟩
    simp only [performAllMoves, hu, hall]

/-- Settles O13: all moves at the port, with none behind them. -/
theorem runDrainsThePort : Obligations.RunDrainsThePort := by
  intro s
  obtain ⟨t, hrun, hall, (ht : t.pending = [])⟩ := run_moves s.pending [] { s with pending := [] }
  have hempty : { t with pending := [] } = t := by rw [← ht]
  rw [List.append_nil, hempty] at hrun
  exact ⟨t, hrun, ht, hall⟩

/-- The words of well-formed commands are performed as the commands (R65). -/
theorem performAllMoves_encode {cmds : List Instr} (h : ∀ i ∈ cmds, i.wellFormed = true) (s : State) :
    performAllMoves (cmds.map (fun i => .command (encode i))) s = performAll cmds s := by
  induction cmds generalizing s with
  | nil => rfl
  | cons i cmds ih =>
    obtain ⟨hi, hcmds⟩ := List.forall_mem_cons.1 h
    have hword : performMove (.command (encode i)) s = exec i s := performWord_of_decode (decode_encode i hi) s
    simp only [List.map_cons, performAllMoves, performAll, hword, ih hcmds]

/-- Settles O14: the program's words are moves at the port, and each performs its command. -/
theorem programRunsItsCommandsInOrder : Obligations.ProgramRunsItsCommandsInOrder := by
  intro cmds s rest hwf
  obtain ⟨t, hrun, hall, -⟩ := run_moves (cmds.map (fun i => .command (encode i))) rest s
  rw [List.length_map] at hrun
  exact ⟨t, hrun, (performAllMoves_encode hwf s).symm.trans hall⟩

end Sys2Proof.Machine
end

section
/-! SUPPORT. The chip image and its addresses (R41 to R43, R48, R54): every transaction is applied where it is emitted, and
the sixteen addresses are those of the eight digits and of the eight LEDs. -/

namespace Sys2Proof.Machine

/-- A state whose image is its trace applied to an image `m` stays one: a transaction is applied to the image and appended to
the trace together, and no other update touches either. -/
theorem body_chip_eq_foldl_trace (i : Instr) {m : List Host.Cell} {s : State}
    (h : s.chip = s.trace.foldl Memory.apply m) : (body i s).chip = (body i s).trace.foldl Memory.apply m := by
  refine body_keeps (P := fun t => t.chip = t.trace.foldl Memory.apply m) (fun x t ht => ?_) (fun _ _ _ _ _ _ ht => ht) i s h
  rw [emit_chip, emit_trace, List.foldl_concat, ht]

/-- Settles O18: a command begins with the image before and an empty trace, and its body applies what it emits. -/
theorem chipImageIsTheTraceApplied : Obligations.ChipImageIsTheTraceApplied := by
  intro i s t ht
  rw [exec_eq_body] at ht
  rw [← next_inj ht]
  exact body_chip_eq_foldl_trace i rfl

theorem existsUnique_digitAddr {a : RegAddr} (ha : a.val % 2 = 0) : ∃! p, digitAddr p = a := by
  have hp : digitAddr ⟨(14 - a.val) / 2, by omega⟩ = a := by
    ext
    simp only [digitAddr_val]
    omega
  exact ⟨_, hp, fun q hq => digitAddr_inj.1 (congrArg Fin.val (hq.trans hp.symm))⟩

theorem existsUnique_ledAddr {a : RegAddr} (ha : a.val % 2 = 1) : ∃! l, ledAddr l = a := by
  have hl : ledAddr ⟨(15 - a.val) / 2, by omega⟩ = a := by
    ext
    simp only [ledAddr_val]
    omega
  exact ⟨_, hl, fun k hk => ledAddr_inj.1 (congrArg Fin.val (hk.trans hl.symm))⟩

/-- Settles O34: the formulas, and each address solved for its digit or its LED. -/
theorem addressMapIsAsTabulated : Obligations.AddressMapIsAsTabulated :=
  ⟨digitAddr_val, ledAddr_val, fun _ => ⟨existsUnique_digitAddr, existsUnique_ledAddr⟩⟩

end Sys2Proof.Machine
end

section
/-! SUPPORT. The decoder against the encoder (R60 to R65). What the decoder can answer is said once: a command, whose opcode,
well-formedness and word are given by the word decoded, or the name of a reserved opcode. -/

namespace Sys2Proof

/-- Settles O4: on each format the fields of the packed word are the operands. -/
theorem decodeOfEncodeIsTheCommand : Obligations.DecodeOfEncodeIsTheCommand := decode_encode

/-! ### The bits of a word, field by field -/

/-- A word is its five fields laid side by side (R60). -/
theorem packWord_fields (w : CommandWord) :
    packWord (opField w) (rdxField w) (mxdField w) (padField w) (w.extractLsb' 0 32) = w := by
  simp only [packWord, opField, rdxField, mxdField, padField, BitVec.extractLsb'_append_extractLsb'_eq_extractLsb']
  exact BitVec.extractLsb'_eq_self

/-- A mask cuts each field of a word for itself. -/
theorem and_packWord (w : CommandWord) (op r m p : Byte) (v : BitVec 32) :
    w &&& packWord op r m p v =
      packWord (opField w &&& op) (rdxField w &&& r) (mxdField w &&& m) (padField w &&& p) (w.extractLsb' 0 32 &&& v) := by
  conv_lhs => rw [← packWord_fields w]
  refine BitVec.eq_of_getLsbD_eq fun i _ => ?_
  simp only [packWord, BitVec.getLsbD_and, BitVec.getLsbD_append]
  split_ifs <;> rfl

/-- The low `n` bits of a word, as the low half keeps them. -/
theorem extractLsb'_setWidth_eq_and (n : Nat) (w : CommandWord) :
    (w.extractLsb' 0 n).setWidth 32 = w.extractLsb' 0 32 &&& (BitVec.allOnes n).setWidth 32 := by
  ext i hi
  simp [Bool.and_comm]

theorem bField_append_aField (w : CommandWord) : bField w ++ aField w = w.extractLsb' 0 16 :=
  BitVec.extractLsb'_append_extractLsb'_eq_extractLsb' rfl

/-! ### The word of each format (R61) whose operands are the fields of `w`: the bits of `w` in the format's mask -/

theorem and_byteMask (b : Byte) : b &&& 0xFF#8 = b := BitVec.and_allOnes

theorem wordZ_of_fields {w : CommandWord} {op : Byte} (h : opField w = op) :
    wordZ op = w &&& packWord 0xFF 0 0 0 0 := by
  subst h
  simp [and_packWord, wordZ, and_byteMask]

theorem wordA_of_fields {w : CommandWord} {op : Byte} (h : opField w = op) :
    wordA op (aField w) = w &&& packWord 0xFF 0 0 0 0xFF := by
  subst h
  simp [and_packWord, wordA, and_byteMask, aField, extractLsb'_setWidth_eq_and]

theorem wordAB_of_fields {w : CommandWord} {op : Byte} (h : opField w = op) :
    wordAB op (aField w) (bField w) = w &&& packWord 0xFF 0 0 0 0xFFFF := by
  subst h
  simp [and_packWord, wordAB, and_byteMask, bField_append_aField, extractLsb'_setWidth_eq_and]

theorem wordPU_of_fields {w : CommandWord} {op : Byte} (W : WidthClass) (h : opField w = op) :
    wordPU op (valField W w) (rdxField w) (mxdField w) (padField w) =
      w &&& packWord 0xFF 0xFF 0xFF 0xFF ((BitVec.allOnes W.bits).setWidth 32) := by
  subst h
  simp [and_packWord, wordPU, and_byteMask, valField, extractLsb'_setWidth_eq_and]

theorem wordPS_of_fields {w : CommandWord} {op : Byte} (W : WidthClass) (h : opField w = op) :
    wordPS op (valField W w) (rdxField w) (mxdField w) =
      w &&& packWord 0xFF 0xFF 0xFF 0 ((BitVec.allOnes W.bits).setWidth 32) := by
  subst h
  simp [and_packWord, wordPS, and_byteMask, valField, extractLsb'_setWidth_eq_and]

/-! ### What the decoder can answer -/

theorem opcode_mem_opcodes (i : Instr) : i.opcode ∈ opcodes := by
  cases i <;> simp [Instr.opcode, opcodes]

/-- A command the decoder gives has the word's opcode, and its own word is the word's used bits (R64, R65). The cases are
taken by format: `Z`, `A`, `AB`, `PU`, `PS`. -/
theorem decode_ok {w : CommandWord} {i : Instr} (h : decode w = .ok i) :
    i.opcode = opField w ∧ i.wellFormed = true ∧ encode i = w &&& usedBits (opField w) := by
  unfold decode at h
  split at h <;> cases h
  case h_10 hop | h_11 hop | h_22 hop => rw [hop]; exact ⟨rfl, rfl, wordZ_of_fields hop⟩
  case h_1 hop | h_2 hop | h_3 hop | h_4 hop | h_7 hop | h_8 hop | h_9 hop | h_12 hop | h_21 hop =>
    rw [hop]; exact ⟨rfl, rfl, wordA_of_fields hop⟩
  case h_5 hop | h_6 hop | h_19 hop | h_20 hop => rw [hop]; exact ⟨rfl, rfl, wordAB_of_fields hop⟩
  case h_13 hop | h_14 hop | h_15 hop => rw [hop]; exact ⟨rfl, valField_fits _ w, wordPU_of_fields _ hop⟩
  case h_16 hop | h_17 hop | h_18 hop => rw [hop]; exact ⟨rfl, valField_fits _ w, wordPS_of_fields _ hop⟩

/-- The one reason for no command is an opcode outside the table (R65 (1)). -/
theorem decode_error {w : CommandWord} {e : DecodeError} (h : decode w = .error e) :
    e = .reservedOpcode (opField w) ∧ opField w ∉ opcodes := by
  unfold decode at h
  split at h <;> cases h
  refine ⟨rfl, ?_⟩
  simp only [opcodes, List.mem_append, List.mem_cons, List.not_mem_nil, or_false]
  tauto

/-- Settles O2: a command's opcode stands in the table, and an error names an opcode that does not. -/
theorem decoderAcceptsExactlyTheOpcodes : Obligations.DecoderAcceptsExactlyTheOpcodes := by
  intro w
  cases h : decode w with
  | ok i =>
    obtain ⟨hop, hwf, -⟩ := decode_ok h
    exact ⟨fun _ => ⟨i, rfl, hop, hwf⟩, fun hout => absurd (hop ▸ opcode_mem_opcodes i) hout⟩
  | error e =>
    obtain ⟨rfl, hout⟩ := decode_error h
    exact ⟨fun hin => absurd hin hout, fun _ => rfl⟩

/-- Settles O5. -/
theorem encodeOfDecodeIsTheUsedBits : Obligations.EncodeOfDecodeIsTheUsedBits := by
  intro w i h
  obtain ⟨-, -, hword⟩ := decode_ok h
  exact hword

/-- Every format uses the opcode field. -/
theorem opField_usedBits (op : Byte) : opField (usedBits op) = 0xFF#8 := by
  unfold usedBits
  split <;> rfl

theorem opField_and (w v : CommandWord) : opField (w &&& v) = opField w &&& opField v := BitVec.extractLsb'_and

/-- Words that agree in the used bits have one opcode. -/
theorem opField_eq_of_usedBits {w v : CommandWord} {op : Byte} (h : w &&& usedBits op = v &&& usedBits op) :
    opField w = opField v := by
  have hop := congrArg opField h
  rwa [opField_and, opField_and, opField_usedBits, and_byteMask, and_byteMask] at hop

/-- Settles O3: the two commands have one word, the used bits, and a word gives back its command; a reserved opcode is itself
among the used bits. -/
theorem unusedBitsAreIgnored : Obligations.UnusedBitsAreIgnored := by
  intro w v h
  have hop : opField w = opField v := opField_eq_of_usedBits h
  obtain ⟨hin, hout⟩ := decoderAcceptsExactlyTheOpcodes w
  obtain ⟨hin', hout'⟩ := decoderAcceptsExactlyTheOpcodes v
  by_cases hmem : opField w ∈ opcodes
  · obtain ⟨i, hi, -, hiwf⟩ := hin hmem
    obtain ⟨j, hj, -, hjwf⟩ := hin' (hop ▸ hmem)
    have hword : encode i = encode j := by
      rw [encodeOfDecodeIsTheUsedBits w i hi, encodeOfDecodeIsTheUsedBits v j hj, h, hop]
    calc decode w = .ok i := hi
      _ = decode (encode i) := (decode_encode i hiwf).symm
      _ = decode (encode j) := congrArg decode hword
      _ = .ok j := decode_encode j hjwf
      _ = decode v := hj.symm
  · rw [hout hmem, hout' (hop ▸ hmem), hop]

/-- Settles O1, by running the decoder on the eight words. -/
theorem workedEncodingsDecode : Obligations.WorkedEncodingsDecode := by
  unfold Obligations.WorkedEncodingsDecode
  decide

end Sys2Proof

namespace Sys2Proof.Machine

/-- The start of a command changes nothing but the account of the command before. -/
theorem beginCommand_silentNoop (s : State) : SilentNoop s (beginCommand s) where
  registers := ⟨rfl, rfl, rfl⟩
  environment := ⟨rfl, rfl, rfl, rfl⟩
  chip := fun _ => rfl
  trace := rfl
  response := rfl

theorem performWord_reserved {w : CommandWord} (h : opField w ∉ opcodes) (s : State) :
    performWord w s = .next (beginCommand s) := by
  obtain ⟨-, hreserved⟩ := decoderAcceptsExactlyTheOpcodes w
  simp only [performWord, hreserved h, reservedNoop, command]

/-- Settles O8. -/
theorem reservedOpcodeIsSilent : Obligations.ReservedOpcodeIsSilent := by
  intro s w rest hp hop
  exact ⟨_, (step_move hp).trans (performWord_reserved hop _), beginCommand_silentNoop _⟩

/-- Settles O56: the off color is legal, and a digit value up to 15 shows its table entry. -/
theorem equalCommandsHaveEqualEffects : Obligations.EqualCommandsHaveEqualEffects := by
  refine ⟨fun a s hP => ?ledsoff, fun a b s hb => ?setdig⟩
  case ledsoff =>
    have hbody : body (.ledson a (colorByte s.params.colorOff)) (beginCommand s) = body (.ledsoff a) (beginCommand s) :=
      if_pos (colorOff_legal hP)
    rw [exec_eq_body, exec_eq_body, hbody]
  case setdig =>
    have hglyph : glyph s.params b.toNat = s.params.segTab[b.toNat] := glyph_of_lt s.params (by omega)
    rw [exec_eq_body, exec_eq_body, ← hglyph]
    rfl

end Sys2Proof.Machine
end

section
/-! SUPPORT. The assembler (R67, R68): every row of its table reads operands into well-formed commands, so a text assembles to
well-formed commands. -/

namespace Sys2Proof.Machine

theorem printUnsigned_wellFormed (W : WidthClass) (v : BitVec 32) (r m p : Byte) :
    (Instr.printUnsigned W v r m p).wellFormed = fitsWidth W v := by
  cases W <;> rfl

theorem printSigned_wellFormed (W : WidthClass) (v : BitVec 32) (r m : Byte) :
    (Instr.printSigned W v r m).wellFormed = fitsWidth W v := by
  cases W <;> rfl

/-- What reads the operands of a command gives well-formed commands only. -/
def ReadsWellFormed (read : List (List Char) → Except AsmError Instr) : Prop :=
  ∀ ops i, read ops = .ok i → i.wellFormed = true

theorem asmZ_wellFormed {i : Instr} (hi : i.wellFormed = true) : ReadsWellFormed (asmZ i) := by
  intro ops j h
  rwa [asmZ_ok h]

theorem asmA_wellFormed {f : Byte → Instr} (hf : ∀ a, (f a).wellFormed = true) : ReadsWellFormed (asmA f) := by
  intro ops i h
  obtain ⟨a, rfl⟩ := asmA_ok h
  exact hf a

theorem asmAB_wellFormed {second : List Char → Except AsmError Byte} {f : Byte → Byte → Instr}
    (hf : ∀ a b, (f a b).wellFormed = true) : ReadsWellFormed (asmAB second f) := by
  intro ops i h
  obtain ⟨a, b, rfl⟩ := asmAB_ok h
  exact hf a b

theorem asmPU_wellFormed (W : WidthClass) : ReadsWellFormed (asmPU W) := by
  intro ops i h
  obtain ⟨v, r, m, p, hv, rfl⟩ := asmPU_ok h
  exact (printUnsigned_wellFormed W v r m p).trans hv

theorem asmPS_wellFormed (W : WidthClass) : ReadsWellFormed (asmPS W) := by
  intro ops i h
  obtain ⟨v, r, m, hv, rfl⟩ := asmPS_ok h
  exact (printSigned_wellFormed W v r m).trans hv

theorem asmTable_readsWellFormed (P : Params) : ∀ row ∈ asmTable P, ReadsWellFormed row.2 := by
  simp only [asmTable, List.cons_append, List.nil_append, List.forall_mem_cons]
  have hA : ∀ {f : Byte → Instr}, (∀ a, (f a).wellFormed = true) → ReadsWellFormed (asmA f) := asmA_wellFormed
  exact ⟨hA fun _ => rfl, hA fun _ => rfl, hA fun _ => rfl, hA fun _ => rfl,
    asmAB_wellFormed fun _ _ => rfl, asmAB_wellFormed fun _ _ => rfl, hA fun _ => rfl, hA fun _ => rfl,
    hA fun _ => rfl, asmZ_wellFormed rfl, asmZ_wellFormed rfl, hA fun _ => rfl,
    asmPU_wellFormed .w8, asmPU_wellFormed .w16, asmPU_wellFormed .w32,
    asmPS_wellFormed .w8, asmPS_wellFormed .w16, asmPS_wellFormed .w32,
    asmAB_wellFormed fun _ _ => rfl, asmAB_wellFormed fun _ _ => rfl, hA fun _ => rfl, asmZ_wellFormed rfl,
    List.forall_mem_nil _⟩

theorem asmCommand_wellFormed {P : Params} {mn : List Char} {ops : List (List Char)} {i : Instr}
    (h : asmCommand P mn ops = .ok i) : i.wellFormed = true := by
  obtain ⟨row, hrow, hread⟩ := asmCommand_ok h
  exact asmTable_readsWellFormed P row hrow ops i hread

theorem asmLine_wellFormed {P : Params} {line : List Char} {c : Option Instr} (h : asmLine P line = .ok c) :
    ∀ i ∈ c, i.wellFormed = true := by
  unfold asmLine at h
  split at h
  · cases h
    simp
  · obtain ⟨j, hj, rfl⟩ := except_map_ok.1 h
    rintro i ⟨⟩
    exact asmCommand_wellFormed hj

theorem asmLines_wellFormed {P : Params} {lines : List (List Char)} {cmds : List Instr} (h : asmLines P lines = .ok cmds) :
    ∀ i ∈ cmds, i.wellFormed = true := by
  induction lines generalizing cmds with
  | nil =>
    cases h
    simp
  | cons line rest ih =>
    obtain ⟨c, hc, h⟩ := except_bind_ok.1 h
    obtain ⟨cs, hcs, rfl⟩ := except_map_ok.1 h
    intro i hi
    obtain hi | hi := List.mem_append.1 hi
    · exact asmLine_wellFormed hc i (Option.mem_toList.1 hi)
    · exact ih hcs i hi

/-- Settles O6: an assembled command is well formed, so its word gives it back. -/
theorem assembledCommandsDecodeBack : Obligations.AssembledCommandsDecodeBack := by
  intro P text cmds h i hi
  have hwf : i.wellFormed = true := asmLines_wellFormed h i hi
  exact ⟨hwf, decode_encode i hwf⟩

end Sys2Proof.Machine
end

section
/-! SUPPORT. The look-up `ENC` at the port (R83, decision D21): a command that only responds is a query, and the response of
`ENC` is the glyph on either side of the guard. -/

namespace Sys2Proof.Machine

/-- A command that only responds changes nothing else and emits nothing (R83, R91 to R93). -/
theorem respond_queryOnly (v : Byte) (s : State) : QueryOnly s (respond v (beginCommand s)) where
  registers := ⟨rfl, rfl, rfl⟩
  environment := ⟨rfl, rfl, rfl, rfl⟩
  chip := fun _ => rfl
  trace := rfl

theorem exec_enc (a : Byte) (s : State) :
    exec (.enc a) s = .next (respond (glyph s.params a.toNat) (beginCommand s)) :=
  exec_eq_body (.enc a) s

/-- Settles O29: `ENC` responds the glyph, which the guard splits into the table entry and the all-off byte. -/
theorem encRespondsTheGlyph : Obligations.EncRespondsTheGlyph := by
  intro a s
  refine ⟨_, exec_enc a s, respond_queryOnly _ s, fun h => ?entry, fun h => ?off⟩
  case entry => rw [respond_response, glyph_of_lt s.params (Nat.lt_succ_of_le h)]
  case off => rw [respond_response, glyph_of_ge s.params h]

end Sys2Proof.Machine
end

section
/-! SUPPORT. The bit remapper (R90 to R96): its reversals are the library's reversal of an index below 8 and of a byte, so
their laws are the library's; and the look-ups `SWPP`, `SWPL`, `SWPB` at the port (decision D21) respond them. -/

namespace Sys2Proof.Machine

/-! ### The reversal of a position and of an LED index -/

theorem swapPos_eq_rev : swapPos = Fin.rev := by
  funext p
  ext
  simp only [swapPos, Fin.val_rev]
  omega

/-- The two index reversals are one function (R90). -/
theorem swapLed_eq_rev : swapLed = Fin.rev := swapPos_eq_rev

/-- An index below 8 and its reversal add up to the odd number 7. -/
theorem rev_ne_self (p : Fin 8) : p.rev ≠ p := by
  intro h
  have hval : p.rev.val = p.val := congrArg Fin.val h
  rw [Fin.val_rev] at hval
  omega

/-! ### The reversal of a byte -/

theorem swapBits_eq_reverse (b : Byte) : swapBits b = b.reverse := by
  refine BitVec.eq_of_getLsbD_eq fun i hi => ?_
  rw [swapBits_getLsbD b hi, BitVec.getLsbD_reverse, BitVec.getMsbD, decide_eq_true hi, Bool.true_and]

theorem swapBits_involutive : Function.Involutive swapBits := by
  intro b
  rw [swapBits_eq_reverse, swapBits_eq_reverse, BitVec.reverse_reverse_eq]

theorem swapBits_or (x y : Byte) : swapBits (x ||| y) = swapBits x ||| swapBits y :=
  BitVec.eq_of_getLsbD_eq fun i hi => by simp only [BitVec.getLsbD_or, swapBits_getLsbD _ hi]

theorem swapBits_and (x y : Byte) : swapBits (x &&& y) = swapBits x &&& swapBits y :=
  BitVec.eq_of_getLsbD_eq fun i hi => by simp only [BitVec.getLsbD_and, swapBits_getLsbD _ hi]

/-- The palindromic bytes are counted by running the loop of R93 on each of the 256. -/
theorem swapBits_fixedPoints_length :
    ((List.range 256).filter (fun n => swapBits (BitVec.ofNat 8 n) = BitVec.ofNat 8 n)).length = 16 := by decide

/-- Settles O33: the index reversals are `Fin.rev` and the byte reversal is `BitVec.reverse`. -/
theorem reversalsAreInvolutions : Obligations.ReversalsAreInvolutions := by
  unfold Obligations.ReversalsAreInvolutions
  have hrev : ∀ p : Fin 8, p.rev.rev = p ∧ p.rev ≠ p := fun p => ⟨Fin.rev_rev p, rev_ne_self p⟩
  refine ⟨fun _ => rfl, fun _ => rfl, fun b i hi => swapBits_getLsbD b (by omega), ?pos, ?led, swapBits_involutive,
    ?posBijective, ?ledBijective, swapBits_involutive.bijective, swapBits_fixedPoints_length,
    fun x y => ⟨swapBits_or x y, swapBits_and x y⟩⟩
  case pos => rwa [swapPos_eq_rev]
  case led => rwa [swapLed_eq_rev]
  case posBijective => rw [swapPos_eq_rev]; exact Fin.rev_bijective
  case ledBijective => rw [swapLed_eq_rev]; exact Fin.rev_bijective

/-! ### The look-ups at the port -/

theorem exec_swpp_of_lt {a : Byte} (h : a.toNat < 8) (s : State) :
    exec (.swpp a) s = .next (respond (BitVec.ofNat 8 (7 - a.toNat)) (beginCommand s)) := by
  rw [exec_eq_body, body, dif_pos h, swapPos]

theorem exec_swpp_of_ge {a : Byte} (h : 8 ≤ a.toNat) (s : State) : exec (.swpp a) s = .next (beginCommand s) := by
  rw [exec_eq_body, body, dif_neg (by omega)]

/-- `SWPL` does what `SWPP` does (R91, R92). -/
theorem exec_swpl_eq_exec_swpp (a : Byte) (s : State) : exec (.swpl a) s = exec (.swpp a) s := rfl

theorem exec_swpb (a : Byte) (s : State) : exec (.swpb a) s = .next (respond (swapBits a) (beginCommand s)) :=
  exec_eq_body (.swpb a) s

theorem SilentNoop.queryOnly {s t : State} (h : SilentNoop s t) : QueryOnly s t :=
  ⟨h.registers, h.environment, h.chip, h.trace⟩

/-- Settles O31: in range `SWPP` responds the reversed position, out of range it is a silent no-op; `SWPL` is the same. -/
theorem swapQueriesRespondTheReversal : Obligations.SwapQueriesRespondTheReversal := by
  intro a s i hi
  have hexec : exec i s = exec (.swpp a) s := by
    obtain rfl | rfl := List.mem_pair.1 hi
    · rfl
    · exact exec_swpl_eq_exec_swpp a s
  rw [hexec]
  obtain h | h := Nat.lt_or_ge a.toNat 8
  · refine ⟨_, exec_swpp_of_lt h s, respond_queryOnly _ s, fun _ => ⟨_, respond_response _ _, ?_⟩, fun hge => by omega⟩
    rw [BitVec.toNat_ofNat, Nat.mod_eq_of_lt (by omega)]
    omega
  · have hsilent : SilentNoop s (beginCommand s) := beginCommand_silentNoop s
    exact ⟨_, exec_swpp_of_ge h s, hsilent.queryOnly, fun hle => by omega, fun _ => hsilent.response⟩

/-- Settles O32: `SWPB` responds the reversed byte, and reversing it again gives the operand. -/
theorem swpbRespondsTheReversedByte : Obligations.SwpbRespondsTheReversedByte := by
  intro a s
  refine ⟨_, exec_swpb a s, respond_queryOnly _ s, swapBits a, respond_response _ _,
    fun i hi => swapBits_getLsbD a (Nat.lt_succ_of_le hi), _, exec_swpb _ _, ?_⟩
  rw [respond_response, swapBits_involutive a]

end Sys2Proof.Machine
end

section
/-! SUPPORT. The display state commands (R100 to R109): what one render and the eight renders of a command do is said once, by
`RendersOne` and `RendersEight`; each command is then its register update. Last, which addresses a command writes (R109). -/

namespace Sys2Proof.Machine

/-! ### Rendering one position (R100) -/

theorem SameRegisters.trans {s t u : State} (h : SameRegisters s t) (h' : SameRegisters t u) : SameRegisters s u :=
  ⟨h'.seg.trans h.seg, h'.dots.trans h.dots, h'.cur.trans h.cur⟩

theorem SameRegisters.combined_eq {s t : State} (h : SameRegisters s t) (p : Position) : combined t p = combined s p := by
  simp only [combined, h.seg, h.dots]

/-- Bit 7 of a clean combined byte is the dot (R100). -/
theorem combined_getLsbD_seven {s : State} (h : SegmentsClean s) (p : Position) :
    (combined s p).getLsbD 7 = s.dots.getLsbD p.val := by
  rw [combined, BitVec.getLsbD_or, dot_getLsbD, h p, decide_eq_true rfl, Bool.true_and, Bool.false_or]

/-- The bits below 7 of a combined byte are the segments (R100). -/
theorem combined_getLsbD_of_lt (s : State) (p : Position) {j : Nat} (hj : j < 7) :
    (combined s p).getLsbD j = (s.seg[p.val]).getLsbD j := by
  rw [combined, BitVec.getLsbD_or, dot_getLsbD, decide_eq_false (Nat.ne_of_lt hj), Bool.false_and, Bool.or_false]

theorem render_coherent (p : Position) (s : State) : Coherent (render p s) p := Memory.read_write_same ..

theorem render_sameChipExcept (p : Position) (s : State) :
    SameChipExcept (fun a => a = (digitAddr p).val) s (render p s) :=
  fun _ ha => Memory.read_write_other _ _ ha

/-- Settles O43: the write goes to the digit register alone, and the dot falls on a clear bit of a clean segment byte. -/
theorem renderEmitsOneWrite : Obligations.RenderEmitsOneWrite := by
  intro p s
  exact ⟨render_trace p s, ⟨rfl, rfl, rfl⟩, ⟨rfl, rfl, rfl, rfl⟩, render_coherent p s, render_sameChipExcept p s,
    fun hclean => ⟨combined_getLsbD_seven hclean p, fun _ hj => combined_getLsbD_of_lt s p hj⟩⟩

/-- A command that updates `SEG` and `DOTS` and then renders one position does no more at the ports than that render. -/
theorem render_rendersOne (p : Position) (s : State) (seg : Vector Byte 8) (dots : Byte) :
    RendersOne s (render p { beginCommand s with seg := seg, dots := dots }) p where
  trace := rfl
  coherent := render_coherent p _
  chip := render_sameChipExcept p { beginCommand s with seg := seg, dots := dots }
  response := rfl
  environment := ⟨rfl, rfl, rfl, rfl⟩

theorem setSeg_rendersOne {pos : Nat} (h : pos < 8) (g : Byte) (s : State) :
    RendersOne s (setSeg pos g (beginCommand s)) ⟨pos, h⟩ := by
  rw [setSeg_in h]
  exact render_rendersOne _ s _ s.dots

/-! ### `SETSEG` and `SETDIG` (R101, R102) -/

theorem exec_setseg (a b : Byte) (s : State) : exec (.setseg a b) s = .next (setSeg a.toNat b (beginCommand s)) :=
  exec_eq_body (.setseg a b) s

/-- `SETDIG` stores the glyph of the digit value (R102). -/
theorem exec_setdig (a b : Byte) (s : State) :
    exec (.setdig a b) s = .next (setSeg a.toNat (glyph s.params b.toNat) (beginCommand s)) :=
  exec_eq_body (.setdig a b) s

/-- Settles O35: `SetSeg` at a position of the display stores the low seven bits there and renders it. -/
theorem setsegStoresAndRenders : Obligations.SetsegStoresAndRenders := by
  intro a b s h
  exact ⟨_, exec_setseg a b s, setSeg_seg a.toNat b (beginCommand s), setSeg_dots .., setSeg_cur ..,
    setSeg_rendersOne (Nat.lt_succ_of_le h) b s⟩

theorem glyph_eq_dite (P : Params) (d : Nat) :
    glyph P d = if h : d ≤ 15 then P.segTab[d]'(Nat.lt_succ_of_le h) else P.segOff := by
  split
  case isTrue h => exact glyph_of_lt P (Nat.lt_succ_of_le h)
  case isFalse h => exact glyph_of_ge P (Nat.lt_of_not_le h)

/-- Settles O36: under admissible parameters the store cuts nothing off the glyph; out of range `SetSeg` does nothing. -/
theorem setdigStoresTheGlyphAndRenders : Obligations.SetdigStoresTheGlyphAndRenders := by
  intro a b s
  refine ⟨fun hP h => ?inRange, fun h => ?outOfRange⟩
  case inRange =>
    refine ⟨_, exec_setdig a b s, fun p => ?_, setSeg_dots .., setSeg_cur .., setSeg_rendersOne (Nat.lt_succ_of_le h) _ s⟩
    rw [setSeg_seg, glyph_clean hP, glyph_eq_dite, beginCommand_seg]
  case outOfRange =>
    refine ⟨_, exec_setdig a b s, ?_⟩
    rw [setSeg_out h]
    exact beginCommand_silentNoop s

/-! ### `DOTON` and `DOTOFF` (R103, R104) -/

theorem exec_doton_of_lt {a : Byte} (h : a.toNat < 8) (s : State) :
    exec (.doton a) s = .next (render ⟨a.toNat, h⟩ { beginCommand s with dots := s.dots ||| (1#8 <<< a.toNat) }) := by
  rw [exec_eq_body, body, dif_pos h, beginCommand_dots]

theorem exec_dotoff_of_lt {a : Byte} (h : a.toNat < 8) (s : State) :
    exec (.dotoff a) s = .next (render ⟨a.toNat, h⟩ { beginCommand s with dots := s.dots &&& ~~~(1#8 <<< a.toNat) }) := by
  rw [exec_eq_body, body, dif_pos h, beginCommand_dots]

theorem exec_doton_of_ge {a : Byte} (h : 8 ≤ a.toNat) (s : State) : exec (.doton a) s = .next (beginCommand s) := by
  rw [exec_eq_body, body, dif_neg (Nat.not_lt.2 h)]

theorem exec_dotoff_of_ge {a : Byte} (h : 8 ≤ a.toNat) (s : State) : exec (.dotoff a) s = .next (beginCommand s) := by
  rw [exec_eq_body, body, dif_neg (Nat.not_lt.2 h)]

theorem getLsbD_setBit (b : Byte) {i : Nat} (hi : i < 8) (j : Nat) :
    (b ||| (1#8 <<< i)).getLsbD j = if j = i then true else b.getLsbD j := by
  split
  case isTrue h => rw [h, ← BitVec.twoPow_eq, BitVec.getLsbD_or, BitVec.getLsbD_twoPow]; simp [hi]
  case isFalse h => exact getLsbD_setBit_ne b h

theorem getLsbD_clearBit (b : Byte) {i j : Nat} (hj : j < 8) :
    (b &&& ~~~(1#8 <<< i)).getLsbD j = if j = i then false else b.getLsbD j := by
  split
  case isTrue h => rw [← h, ← BitVec.twoPow_eq, BitVec.getLsbD_and, BitVec.getLsbD_not, BitVec.getLsbD_twoPow]; simp [hj]
  case isFalse h => exact getLsbD_clearBit_ne b hj h

/-- Settles O37: in range one bit of the mask is written and its position rendered, out of range the body does nothing. -/
theorem dotCommandsWriteOneBit : Obligations.DotCommandsWriteOneBit := by
  intro a s
  refine ⟨fun h => ?inRange, fun h i hi => ?outOfRange⟩
  case inRange =>
    have hlt : a.toNat < 8 := Nat.lt_succ_of_le h
    constructor
    · exact ⟨_, exec_doton_of_lt hlt s, fun j _ => getLsbD_setBit s.dots hlt j, rfl, rfl, render_rendersOne _ s s.seg _⟩
    · exact ⟨_, exec_dotoff_of_lt hlt s, fun j hj => getLsbD_clearBit s.dots hj, rfl, rfl, render_rendersOne _ s s.seg _⟩
  case outOfRange =>
    refine ⟨_, ?_, beginCommand_silentNoop s⟩
    obtain rfl | rfl := List.mem_pair.1 hi
    exacts [exec_doton_of_ge h s, exec_dotoff_of_ge h s]

/-! ### `SETDOTS` and `REFRESH` (R105, R106) -/

theorem exec_setdots (a : Byte) (s : State) :
    exec (.setdots a) s = .next (renderAll { beginCommand s with dots := a }) :=
  exec_eq_body (.setdots a) s

theorem exec_refresh (s : State) : exec .refresh s = .next (renderAll (beginCommand s)) := exec_eq_body .refresh s

theorem renderAll_registers (s : State) : SameRegisters s (renderAll s) :=
  ⟨renderAll_seg s, renderAll_dots s, renderAll_cur s⟩

/-- A command that updates `DOTS` and then renders all positions does no more at the ports than the eight renders. -/
theorem renderAll_rendersEight (s : State) (dots : Byte) :
    RendersEight s (renderAll { beginCommand s with dots := dots }) where
  trace := by
    simp only [renderAll_trace, beginCommand_trace, List.nil_append, (renderAll_registers _).combined_eq]
  coherent := fun p => renderAll_coherent p _
  chip := fun _ ha => renderAll_read_other _ (fun p hp => ha ⟨p, hp⟩)
  response := renderAll_response _
  environment := ⟨renderAll_pending _, renderAll_scans _, renderAll_resets _, renderAll_params _⟩

/-- Settles O38: the mask is replaced, and all eight positions are rendered. -/
theorem setdotsReplacesTheMask : Obligations.SetdotsReplacesTheMask := by
  intro a s
  exact ⟨_, exec_setdots a s, renderAll_dots _, renderAll_seg _, renderAll_cur _, renderAll_rendersEight s a⟩

/-- Settles O39: the eight writes are those of the registers, which the first `REFRESH` leaves to the second. -/
theorem refreshPushesTheMirror : Obligations.RefreshPushesTheMirror := by
  intro s
  have keeps : ∀ u : State, SameRegisters u (renderAll (beginCommand u)) :=
    fun u => (beginCommand_silentNoop u).registers.trans (renderAll_registers _)
  have renders : ∀ u : State, RendersEight u (renderAll (beginCommand u)) := fun u => renderAll_rendersEight u u.dots
  refine ⟨_, _, exec_refresh s, keeps s, renders s, exec_refresh _, ?_, (keeps s).trans (keeps _)⟩
  rw [(renders _).trace, (renders s).trace]
  simp only [(keeps (renderAll (beginCommand s))).combined_eq]

/-! ### `CLEAR` and `SETCUR` (R107, R108) -/

theorem exec_clear (s : State) :
    exec .clear s = .next (chipClear { beginCommand s with seg := Vector.replicate 8 0x00#8, dots := 0x00#8 }) :=
  exec_eq_body .clear s

/-- Settles O40: the registers and the cleared image are zero, so they agree. -/
theorem clearBlanksStateAndChip : Obligations.ClearBlanksStateAndChip := by
  intro s
  refine ⟨_, exec_clear s, fun p => Vector.getElem_replicate p.isLt, rfl, rfl, rfl, rfl, ⟨rfl, rfl, rfl, rfl⟩,
    fun a => ?within, fun a ha => ?beyond, fun p => clear_coherent p (beginCommand s)⟩
  case within => rw [chipClear_chip, Memory.read_cleared, if_pos a.isLt]
  case beyond => rw [chipClear_chip, Memory.read_cleared, if_neg (Nat.not_lt.2 ha)]

theorem exec_setcur_of_le {a : Byte} (h : a.toNat ≤ 7) (s : State) :
    exec (.setcur a) s = .next { beginCommand s with cur := a } := by
  rw [exec_eq_body, body, if_pos h]

/-- Settles O41. -/
theorem setcurWritesTheCursor : Obligations.SetcurWritesTheCursor := by
  intro a s h
  exact ⟨_, exec_setcur_of_le h s, rfl, rfl, rfl, rfl, rfl, ⟨rfl, rfl, rfl, rfl⟩, fun _ => rfl⟩

/-! ### The addresses a command writes (R109, R156) -/

/-- Every `WR` of the latest command is of the kind `ok`. -/
def WritesOnly (ok : RegAddr → Byte → Prop) (s : State) : Prop := ∀ a v, .wr a v ∈ s.trace → ok a v

/-- A write to a digit register: an even address (R42). -/
def DigitWrite (a : RegAddr) (_ : Byte) : Prop := a.val % 2 = 0

/-- A write of a legal color to an LED register: an odd address (R43, R155). -/
def LedWrite (a : RegAddr) (v : Byte) : Prop := a.val % 2 = 1 ∧ legalColor v = true

/-- The commands of the board driver that write the chip (R150 to R152). -/
def IsLedCommand (i : Instr) : Prop := (∃ x b, i = .setled x b) ∨ (∃ x b, i = .ledson x b) ∨ (∃ x, i = .ledsoff x)

theorem digitWrite_digitAddr (p : Position) (v : Byte) : DigitWrite (digitAddr p) v := by
  rw [DigitWrite, digitAddr_val]
  omega

theorem ledWrite_ledAddr (l : LedIndex) {v : Byte} (hv : legalColor v = true) : LedWrite (ledAddr l) v := by
  refine ⟨?_, hv⟩
  rw [ledAddr_val]
  omega

theorem writesOnly_beginCommand (ok : RegAddr → Byte → Prop) (s : State) : WritesOnly ok (beginCommand s) :=
  fun _ _ h => absurd h List.not_mem_nil

theorem emit_writesOnly {ok : RegAddr → Byte → Prop} {x : Transaction} {s : State}
    (hx : ∀ a v, .wr a v = x → ok a v) (hs : WritesOnly ok s) : WritesOnly ok (emit x s) := by
  intro a v h
  obtain hold | hnew := List.mem_append.1 h
  · exact hs a v hold
  · exact hx a v (List.mem_singleton.1 hnew)

theorem memWrite_writesOnly {ok : RegAddr → Byte → Prop} {a : RegAddr} {v : Byte} {s : State} (h : ok a v)
    (hs : WritesOnly ok s) : WritesOnly ok (memWrite a v s) := by
  refine emit_writesOnly (fun b w heq => ?_) hs
  cases heq
  exact h

theorem render_writesDigits (p : Position) {s : State} (hs : WritesOnly DigitWrite s) : WritesOnly DigitWrite (render p s) :=
  memWrite_writesOnly (digitWrite_digitAddr p _) hs

theorem setSeg_writesDigits (pos : Nat) (g : Byte) (s : State) (hs : WritesOnly DigitWrite s) :
    WritesOnly DigitWrite (setSeg pos g s) :=
  setSeg_cases pos g s (fun _ => hs) (fun h => render_writesDigits ⟨pos, h⟩ hs)

/-- One more write for each entry of a list. -/
theorem writesOnly_append_map {α : Type} {ok : RegAddr → Byte → Prop} {addr : α → RegAddr} {val : α → Byte}
    (hok : ∀ x, ok (addr x) (val x)) {xs : List α} {s t : State}
    (ht : t.trace = s.trace ++ xs.map (fun x => .wr (addr x) (val x))) (hs : WritesOnly ok s) : WritesOnly ok t := by
  intro a v h
  rw [ht] at h
  obtain hold | hnew := List.mem_append.1 h
  · exact hs a v hold
  · obtain ⟨x, -, heq⟩ := List.mem_map.1 hnew
    cases heq
    exact hok x

theorem renderAll_writesDigits {s : State} (hs : WritesOnly DigitWrite s) : WritesOnly DigitWrite (renderAll s) :=
  writesOnly_append_map (fun p => digitWrite_digitAddr p _) (renderAll_trace s) hs

theorem writeLeds_writesLeds (mask : Byte) {v : Byte} (hv : legalColor v = true) {s : State} (hs : WritesOnly LedWrite s) :
    WritesOnly LedWrite (writeLeds mask v s) :=
  writesOnly_append_map (fun l => ledWrite_ledAddr l hv) (writeLeds_trace mask v s) hs

/-- The body of a board driver command writes legal colors to LED registers (R156). -/
theorem body_writesLeds {i : Instr} (hi : IsLedCommand i) {s : State} (hP : s.params.Admissible)
    (hs : WritesOnly LedWrite s) : WritesOnly LedWrite (body i s) := by
  obtain ⟨x, b, rfl⟩ | ⟨x, b, rfl⟩ | ⟨x, rfl⟩ := hi
  · simp only [body]
    split
    · split
      exacts [memWrite_writesOnly (ledWrite_ledAddr _ ‹_›) hs, hs]
    · exact hs
  · simp only [body]
    split
    exacts [writeLeds_writesLeds x ‹_› hs, hs]
  · exact writeLeds_writesLeds x (colorOff_legal hP) hs

/-- The body of every other command writes digit registers only (R109). -/
theorem body_writesDigits {i : Instr} (hi : ¬ IsLedCommand i) {s : State} (hs : WritesOnly DigitWrite s) :
    WritesOnly DigitWrite (body i s) := by
  cases i with
  | enc | swpb => exact hs
  | swpp | swpl | setcur => simp only [body]; split <;> exact hs
  | setseg | setdig => exact setSeg_writesDigits _ _ s hs
  | doton | dotoff => simp only [body]; split; exacts [render_writesDigits _ hs, hs]
  | setdots | refresh => exact renderAll_writesDigits hs
  | clear => exact emit_writesOnly (fun _ _ heq => nomatch heq) hs
  | getbtn => exact emit_writesOnly (s := s) (fun _ _ heq => nomatch heq) hs
  | printu8 | printu16 | printu32 => exact printUnsigned_keeps setSeg_writesDigits _ _ _ _ s hs
  | prints8 | prints16 | prints32 => exact printSigned_keeps setSeg_writesDigits _ _ _ _ s hs
  | setled x b => exact absurd (.inl ⟨x, b, rfl⟩) hi
  | ledson x b => exact absurd (.inr (.inl ⟨x, b, rfl⟩)) hi
  | ledsoff x => exact absurd (.inr (.inr ⟨x, rfl⟩)) hi

/-- Settles O25: a command begins with an empty trace, to which a board driver command adds LED writes and every other command
digit writes. -/
theorem writesKeepToTheirRegisters : Obligations.WritesKeepToTheirRegisters := by
  intro i s t a v hP h hmem
  obtain rfl := next_inj ((exec_eq_body i s).symm.trans h)
  by_cases hi : IsLedCommand i
  · exact .inl ⟨hi, body_writesLeds (s := beginCommand s) hi hP (writesOnly_beginCommand _ s) a v hmem⟩
  · exact .inr ⟨hi, body_writesDigits hi (writesOnly_beginCommand _ s) a v hmem⟩

end Sys2Proof.Machine
end

section
/-! SUPPORT. The number formatter (R119 to R140): the arithmetic of the overflow check, the magnitude and the digits; then what
a print shows, said once by `PrintShows`, from which each statement about the prints is read off. -/

namespace Sys2Proof.Machine

/-! ### The overflow check (R120, R121, R135, R138) -/

/-- As `numDigits_le_iff`, up to the cap itself for a value the cap does not cut short. -/
theorem numDigits_le_iff_of_le_cap {cap v r q : Nat} (hr : 2 ≤ r) (hq : 1 ≤ q) (hcap : q ≤ cap)
    (hv : q < cap ∨ v < r ^ q) : numDigits cap v r ≤ q ↔ v < r ^ q := by
  obtain hlt | rfl := Nat.lt_or_eq_of_le hcap
  · exact numDigits_le_iff hr hq hlt
  · exact iff_of_true (numDigits_le_cap hq v r) (hv.resolve_left (Nat.lt_irrefl q))

/-- A value that needs a position fits exactly when the positions left in the budget and on the display hold it. -/
theorem overflows_eq_false_iff {cur n m : Nat} (hn : 1 ≤ n) : overflows cur n m = false ↔ n ≤ min m (8 - cur) := by
  simp only [overflows, Bool.or_eq_false_iff, decide_eq_false_iff_not]
  omega

/-- Settles O44: the check compares the digit count with the positions left, of which there are at most 8; the count is exact
below the cap, so that only the cap 8 with all 8 positions left is a case of its own. -/
theorem overflowCheckIsExact : Obligations.OverflowCheckIsExact := by
  refine ⟨fun cap cur v r m extra hr hcap => ?exact, fun v r m hr hv hm => ?corner⟩
  case exact =>
    have hpos := numDigits_pos cap v r
    rw [overflows_eq_false_iff (by omega)]
    have hsplit : numDigits cap v r + extra ≤ min m (8 - cur) ↔
        extra < min m (8 - cur) ∧ numDigits cap v r ≤ min m (8 - cur) - extra := by omega
    rw [hsplit]
    refine and_congr_right fun hroom => numDigits_le_iff_of_le_cap hr (by omega) (by omega) ?_
    obtain h9 | ⟨h8, hreserved | hvalue | hbudget | hcursor⟩ := hcap
    case inr.inr.inl =>
      by_cases hall : min m (8 - cur) - extra = 8
      · exact .inr (by rwa [hall])
      · exact .inl (by omega)
    all_goals exact .inl (by omega)
  case corner =>
    have hcut : numDigits 8 v r ≤ 8 := numDigits_le_cap (by omega) v r
    have hlong : ¬ numDigits 9 v r ≤ 8 := mt (numDigits_le_iff hr (by omega) (by omega)).1 (by omega)
    constructor
    · rw [overflows_eq_false_iff (numDigits_pos ..)]
      omega
    · rw [← Bool.not_eq_false, overflows_eq_false_iff (numDigits_pos ..)]
      omega

theorem inBudget_iff {cur m : Nat} {p : Position} : inBudget cur m p = true ↔ cur ≤ p.val ∧ p.val < cur + m := by
  rw [inBudget, Bool.and_eq_true, decide_eq_true_eq, decide_eq_true_eq]

/-- A print that fits has each of its positions on the display and in its budget. -/
theorem inBudget_of_fits {cur n m j : Nat} (h : overflows cur n m = false) (hj : j < n) :
    ∃ h8 : cur + j < 8, inBudget cur m ⟨cur + j, h8⟩ = true := by
  rw [overflows_eq_false_iff (by omega)] at h
  exact ⟨by omega, inBudget_iff.2 (by dsimp only; omega)⟩

/-! ### The magnitude (R11, R126) -/

theorem two_pow_bits (W : WidthClass) : 2 ^ W.bits = 2 * 2 ^ (W.bits - 1) := by
  cases W <;> rfl

theorem cutValue_lt (W : WidthClass) (val : BitVec 32) : cutValue W val < 2 ^ W.bits :=
  Nat.mod_lt _ (Nat.two_pow_pos _)

/-- The sign bit tells the upper half of the patterns (R125). -/
theorem isNegative_iff {W : WidthClass} {x : Nat} (hx : x < 2 ^ W.bits) : isNegative W x = true ↔ 2 ^ (W.bits - 1) ≤ x := by
  rw [isNegative, Nat.testBit_eq_decide_div_mod_eq, decide_eq_true_eq]
  have := two_pow_bits W
  have hlt : x / 2 ^ (W.bits - 1) < 2 := by
    rw [Nat.div_lt_iff_lt_mul (Nat.two_pow_pos _)]
    omega
  rw [Nat.mod_eq_of_lt hlt, ← Nat.one_le_div_iff (Nat.two_pow_pos _)]
  omega

theorem magnitude_of_nonneg {W : WidthClass} {x : Nat} (h : isNegative W x = false) : magnitude W x = x := by
  simp [magnitude, h]

theorem signedValue_neg_iff {W : WidthClass} {x : Nat} (hx : x < 2 ^ W.bits) :
    signedValue W x < 0 ↔ isNegative W x = true := by
  have hcast : (x : Int) < 2 ^ W.bits := by exact_mod_cast hx
  rw [signedValue]
  split
  case isTrue h => exact iff_of_true (by omega) h
  case isFalse h => exact iff_of_false (by omega) h

/-- Settles O45: a pattern of the upper half stands for itself less `2 ^ W`, one of the lower half for itself. -/
theorem magnitudeIsExact : Obligations.MagnitudeIsExact := by
  intro W x hx
  have hhalf : (2 ^ W.bits : Int) = 2 * 2 ^ (W.bits - 1) := by exact_mod_cast two_pow_bits W
  have hlt : (x : Int) < 2 ^ W.bits := by exact_mod_cast hx
  by_cases hneg : isNegative W x = true
  · have hge : (2 ^ (W.bits - 1) : Int) ≤ x := by exact_mod_cast (isNegative_iff hx).1 hneg
    have hval : signedValue W x = x - 2 ^ W.bits := if_pos hneg
    have hmag : magnitude W x = 2 ^ W.bits - x := if_pos hneg
    rw [hval, hmag, abs_of_neg (by omega), Nat.cast_sub hx.le]
    refine ⟨by push_cast; ring, by omega, by omega, ?_⟩
    rw [sub_right_comm, sub_self, zero_sub, Int.neg_emod_self]
  · have hge : (x : Int) < 2 ^ (W.bits - 1) := by exact_mod_cast Nat.not_le.1 (mt (isNegative_iff hx).2 hneg)
    have hval : signedValue W x = x := if_neg hneg
    rw [hval, magnitude_of_nonneg (Bool.eq_false_of_not_eq_true hneg), abs_of_nonneg (by omega), sub_self]
    exact ⟨rfl, by omega, hge, Int.zero_emod _⟩

/-! ### The digits (R123, R134) -/

/-- The lowest `n` digits of a value add up to its remainder modulo `r ^ n`. -/
theorem sum_digits_eq_mod (v r n : Nat) : ∑ j ∈ Finset.range n, v / r ^ j % r * r ^ j = v % r ^ n := by
  induction n with
  | zero => simp [Nat.mod_one]
  | succ n ih => rw [Finset.sum_range_succ, ih, Nat.mod_pow_succ, Nat.mul_comm]

theorem sum_digits {v r n : Nat} (h : v < r ^ n) : v = ∑ j ∈ Finset.range n, v / r ^ j % r * r ^ j := by
  rw [sum_digits_eq_mod, Nat.mod_eq_of_lt h]

/-- Every counted digit is shown, zeros between and after the others included; only a zero with pad 0 is not (R136). -/
theorem positionGlyph_of_lt_numDigits {P : Params} {cap v r pad j : Nat} (hr : 2 ≤ r) (hcap : 1 ≤ cap)
    (hj : j < numDigits cap v r) (hshown : v ≠ 0 ∨ 1 ≤ pad) : positionGlyph P v r pad j = glyph P (v / r ^ j % r) := by
  refine if_neg ?_
  rintro ⟨hzero, hpad⟩
  have hle : numDigits cap v r ≤ cap := numDigits_le_cap hcap v r
  have hlow : v < r ^ j := Nat.lt_of_div_eq_zero (Nat.pow_pos (by omega)) hzero
  obtain rfl | hj1 := Nat.eq_zero_or_pos j
  · rw [pow_zero, Nat.lt_one_iff] at hlow
    omega
  · exact absurd ((numDigits_le_iff hr hj1 (hj.trans_le hle)).2 hlow) (Nat.not_le.2 hj)

/-- Above the digits of a value its positions are blank, under a pad of 1 (R123). -/
theorem positionGlyph_above {P : Params} {v r k i : Nat} (hr : 2 ≤ r) (hv : v < r ^ k) (hk : k ≤ i) (hi : 1 ≤ i) :
    positionGlyph P v r 1 i = P.segOff :=
  if_pos ⟨Nat.div_eq_of_lt (hv.trans_le (Nat.pow_le_pow_right (by omega) hk)), hi⟩

/-! ### What a print shows (R122 to R125) -/

/-- From `s` to `t` a print with budget `m` put the bytes `shown` on the display, and did nothing else to the state. -/
structure PrintShows (s t : State) (m : Nat) (shown : Position → Byte) : Prop where
  frame : PrintFrame s t m
  seg : ∀ p : Position, inBudget s.cur.toNat m p = true → t.seg[p.val] = shown p
  coherent : ∀ p : Position, inBudget s.cur.toNat m p = true → Coherent t p

section

variable {s t : State} {m : Nat} {shown : Position → Byte}

theorem PrintShows.combined_eq (h : PrintShows s t m shown) {p : Position} (hp : inBudget s.cur.toNat m p = true) :
    combined t p = withDot s p (shown p) := by
  rw [combined, withDot, h.seg p hp, h.frame.dots]

/-- The writes of the shown bytes are those of the combined bytes the print leaves. -/
theorem PrintShows.writes_eq (h : PrintShows s t m shown) :
    (budgetPositions s.cur.toNat m).map (fun p => Transaction.wr (digitAddr p) (withDot s p (shown p))) =
      (budgetPositions s.cur.toNat m).map (fun p => .wr (digitAddr p) (combined t p)) :=
  List.map_congr_left fun p hp => by rw [h.combined_eq (List.mem_filter.1 hp).2]

/-- One more store within the budget replaces the byte of its position. -/
theorem PrintShows.after_setSeg (h : PrintShows s t m shown) {q : Position} (hq : inBudget s.cur.toNat m q = true)
    {g : Byte} (hg : g &&& 0x7F#8 = g) :
    PrintShows s (setSeg q.val g t) m (Function.update shown q g) where
  frame :=
    { dots := (setSeg_dots ..).trans h.frame.dots
      cur := (setSeg_cur ..).trans h.frame.cur
      seg := fun p hp => by
        have hne : p.val ≠ q.val := fun heq => absurd hq (ne_true_of_eq_false (Fin.ext heq ▸ hp))
        rw [setSeg_seg, if_neg hne, h.frame.seg p hp]
      chip := fun a ha => by
        have hne : a ≠ (digitAddr q).val := fun heq => ha ⟨q, hq, heq⟩
        rw [setSeg_read, dif_pos q.isLt, if_neg hne, h.frame.chip a ha]
      response := (setSeg_response ..).trans h.frame.response
      environment := ⟨(setSeg_pending ..).trans h.frame.environment.pending,
        (setSeg_scans ..).trans h.frame.environment.scans, (setSeg_resets ..).trans h.frame.environment.resets,
        (setSeg_params ..).trans h.frame.environment.params⟩ }
  seg := fun p hp => by
    simp only [setSeg_seg, Function.update_apply, Fin.ext_iff, hg, h.seg p hp]
  coherent := fun p hp => (setSeg_digitFollows p q.val g t).coherent (h.coherent p hp)

end

/-- The common loop shows its glyphs. -/
theorem paint_shows {g : Nat → Byte} (hg : ∀ i, g i &&& 0x7F#8 = g i) (m : Nat) (s : State) :
    PrintShows s (paintFrom g m 0 (beginCommand s)) m (fun p => g (p.val - s.cur.toNat)) where
  frame :=
    { dots := paintFrom_dots ..
      cur := paintFrom_cur ..
      seg := fun p hp => by
        rw [paintFrom_seg, beginCommand_cur, Nat.add_zero, if_neg (mt inBudget_iff.2 (ne_true_of_eq_false hp)),
          beginCommand_seg]
      chip := fun a ha => paintFrom_read_other g m 0 _ fun p hlo hhi heq => ha ⟨p, inBudget_iff.2 ⟨hlo, hhi⟩, heq⟩
      response := paintFrom_response ..
      environment := ⟨paintFrom_pending .., paintFrom_scans .., paintFrom_resets .., paintFrom_params ..⟩ }
  seg := fun p hp => by rw [paintFrom_seg, beginCommand_cur, Nat.add_zero, if_pos (inBudget_iff.1 hp), hg]
  coherent := fun p hp => by
    rw [Coherent, paintFrom_read_digit, combined, paintFrom_seg, paintFrom_dots, beginCommand_cur,
      Nat.add_zero, if_pos (inBudget_iff.1 hp), if_pos (inBudget_iff.1 hp), withDot]

theorem paint_trace {g : Nat → Byte} (hg : ∀ i, g i &&& 0x7F#8 = g i) (m : Nat) (s : State) :
    (paintFrom g m 0 (beginCommand s)).trace = (budgetPositions s.cur.toNat m).map
      (fun p => .wr (digitAddr p) (withDot s p (g (p.val - s.cur.toNat)))) := by
  simp only [paintFrom_trace, beginCommand_trace, List.nil_append, hg]
  rfl

/-! ### The four ways of a print (R124, R125, R133) -/

theorem exec_printUnsigned (W : WidthClass) (val : BitVec 32) (rdx mxd pad : Byte) (s : State) :
    exec (.printUnsigned W val rdx mxd pad) s =
      .next (printUnsigned (cutValue W val) rdx.toNat mxd.toNat pad.toNat (beginCommand s)) := by
  rw [exec_eq_body, body_printUnsigned]

theorem exec_printSigned (W : WidthClass) (val : BitVec 32) (rdx mxd : Byte) (s : State) :
    exec (.printSigned W val rdx mxd) s =
      .next (printSigned W (cutValue W val) rdx.toNat mxd.toNat (beginCommand s)) := by
  rw [exec_eq_body, body_printSigned]

/-- The glyph of the sign position (R125). -/
def signGlyph (P : Params) (negative : Bool) : Byte := if negative then P.segMinus else P.segOff

theorem signGlyph_clean {P : Params} (hP : P.Admissible) (negative : Bool) :
    signGlyph P negative &&& 0x7F#8 = signGlyph P negative := by
  cases negative
  exacts [segOff_clean hP, segMinus_clean hP]

theorem printUnsigned_of_overflow {v r m : Nat} (pad : Nat) {s : State} (hr : 2 ≤ r)
    (h : overflows s.cur.toNat (numDigits s.params.ndCap v r) m = true) :
    printUnsigned v r m pad (beginCommand s) = paintFrom (fun _ => s.params.segMinus) m 0 (beginCommand s) := by
  rw [printUnsigned, if_neg (Nat.not_lt.2 hr), if_pos (by exact h), overflowRun_eq_paint, beginCommand_params]

theorem printUnsigned_of_fits {v r m : Nat} (pad : Nat) {s : State} (hr : 2 ≤ r)
    (h : overflows s.cur.toNat (numDigits s.params.ndCap v r) m = false) :
    printUnsigned v r m pad (beginCommand s) = paintFrom (positionGlyph s.params v r pad) m 0 (beginCommand s) := by
  rw [printUnsigned, if_neg (Nat.not_lt.2 hr), if_neg (ne_true_of_eq_false (by exact h)), digitLoop_eq_paint,
    beginCommand_params]

theorem printSigned_of_overflow {W : WidthClass} {x r m : Nat} {s : State} (hr : 2 ≤ r)
    (h : overflows s.cur.toNat (numDigits s.params.ndCap (magnitude W x) r + 1) m = true) :
    printSigned W x r m (beginCommand s) = paintFrom (fun _ => s.params.segMinus) m 0 (beginCommand s) := by
  rw [printSigned, if_neg (Nat.not_lt.2 hr), if_pos (by exact h), overflowRun_eq_paint, beginCommand_params]

theorem printSigned_of_fits {W : WidthClass} {x r m : Nat} {s : State} (hr : 2 ≤ r)
    (h : overflows s.cur.toNat (numDigits s.params.ndCap (magnitude W x) r + 1) m = false) :
    printSigned W x r m (beginCommand s) =
      setSeg (s.cur.toNat + numDigits s.params.ndCap (magnitude W x) r) (signGlyph s.params (isNegative W x))
        (paintFrom (positionGlyph s.params (magnitude W x) r 1) m 0 (beginCommand s)) := by
  rw [printSigned, if_neg (Nat.not_lt.2 hr), if_neg (ne_true_of_eq_false (by exact h)), digitLoop_eq_paint, writeSign,
    paintFrom_cur, paintFrom_params, signGlyph, beginCommand_cur, beginCommand_params]

/-! ### A radix below 2 and an overflow (R121, R122, R133) -/

/-- Settles O46: behind the radix guard both kinds of print leave the state of the command's start. -/
theorem radixBelowTwoIsSilent : Obligations.RadixBelowTwoIsSilent := by
  intro W val rdx mxd pad s hr
  refine ⟨⟨_, exec_printUnsigned .., ?unsigned⟩, ⟨_, exec_printSigned .., ?signed⟩⟩
  case unsigned =>
    rw [printUnsigned, if_pos hr]
    exact beginCommand_silentNoop s
  case signed =>
    rw [printSigned, if_pos hr]
    exact beginCommand_silentNoop s

/-- Settles O48: a print of either kind that overflows is the loop that shows minus glyphs. -/
theorem overflowShowsMinusGlyphs : Obligations.OverflowShowsMinusGlyphs := by
  intro W val rdx mxd pad s i hr hP h
  have hclean : ∀ _ : Nat, s.params.segMinus &&& 0x7F#8 = s.params.segMinus := fun _ => segMinus_clean hP
  have hshows := paint_shows hclean mxd.toNat s
  have hexec : exec i s = .next (paintFrom (fun _ => s.params.segMinus) mxd.toNat 0 (beginCommand s)) := by
    obtain ⟨rfl, hover⟩ | ⟨rfl, hover⟩ := h
    · rw [exec_printUnsigned, printUnsigned_of_overflow _ hr hover]
    · rw [exec_printSigned, printSigned_of_overflow hr hover]
  exact ⟨_, hexec, hshows.frame, fun p hp => ⟨hshows.coherent p hp, hshows.seg p hp⟩,
    (paint_trace hclean mxd.toNat s).trans hshows.writes_eq⟩

/-! ### Unsigned prints that fit (R123, R124, R127 to R129) -/

theorem exec_printUnsigned_of_fits {W : WidthClass} {val : BitVec 32} {rdx mxd : Byte} (pad : Byte) {s : State}
    (hr : 2 ≤ rdx.toNat)
    (hfit : overflows s.cur.toNat (numDigits s.params.ndCap (cutValue W val) rdx.toNat) mxd.toNat = false) :
    exec (.printUnsigned W val rdx mxd pad) s =
      .next (paintFrom (positionGlyph s.params (cutValue W val) rdx.toNat pad.toNat) mxd.toNat 0 (beginCommand s)) := by
  rw [exec_printUnsigned, printUnsigned_of_fits _ hr hfit]

/-- Settles O47: an unsigned print that fits is the loop that shows the digits. -/
theorem unsignedPrintShowsTheDigits : Obligations.UnsignedPrintShowsTheDigits := by
  intro W val rdx mxd pad s hr hP hfit
  have hclean := positionGlyph_clean hP (cutValue W val) rdx.toNat pad.toNat
  have hshows := paint_shows hclean mxd.toNat s
  exact ⟨_, exec_printUnsigned_of_fits pad hr hfit, hshows.frame, fun p hp => ⟨hshows.coherent p hp, hshows.seg p hp⟩,
    (paint_trace hclean mxd.toNat s).trans hshows.writes_eq⟩

/-- Settles O50: the counted digits hold the whole value, and each is shown. -/
theorem unsignedDigitsDenoteTheValue : Obligations.UnsignedDigitsDenoteTheValue := by
  intro W val rdx mxd pad s n hr hP hn hfit hshown hvalue
  have hcap := hP.cap
  have hpos : 1 ≤ n := hn ▸ numDigits_pos ..
  have hroom := (overflows_eq_false_iff hpos).1 hfit
  have hholds : cutValue W val < rdx.toNat ^ n := by
    refine (numDigits_le_iff_of_le_cap hr hpos (cap := s.params.ndCap) (by omega) ?_).1 hn.ge
    obtain h9 | hv := hvalue
    · exact .inl (by omega)
    · by_cases hall : n = 8
      · exact .inr (hall ▸ hv)
      · exact .inl (by omega)
  have hshows := paint_shows (positionGlyph_clean hP (cutValue W val) rdx.toNat pad.toNat) mxd.toNat s
  refine ⟨_, fun j => cutValue W val / rdx.toNat ^ j % rdx.toNat, exec_printUnsigned_of_fits pad hr (hn ▸ hfit),
    sum_digits hholds, fun j hj => ⟨Nat.mod_lt _ (by omega), ?_⟩⟩
  obtain ⟨h8, hin⟩ := inBudget_of_fits hfit hj
  refine ⟨h8, (hshows.seg _ hin).trans ?_⟩
  rw [Nat.add_sub_cancel_left]
  exact positionGlyph_of_lt_numDigits hr (by omega) (hn ▸ hj) hshown

/-! ### Signed prints that fit (R125, R130 to R132, R140) -/

/-- A signed print that fits shows the digits of the magnitude and, at `q` left of them, the sign. -/
theorem printSigned_shows {W : WidthClass} {x r m : Nat} {s : State} {q : Position} (hr : 2 ≤ r) (hP : s.params.Admissible)
    (hq : q.val = s.cur.toNat + numDigits s.params.ndCap (magnitude W x) r)
    (hfit : overflows s.cur.toNat (numDigits s.params.ndCap (magnitude W x) r + 1) m = false) :
    PrintShows s (printSigned W x r m (beginCommand s)) m
      (Function.update (fun p => positionGlyph s.params (magnitude W x) r 1 (p.val - s.cur.toNat)) q
        (signGlyph s.params (isNegative W x))) := by
  obtain ⟨h8, hin⟩ := inBudget_of_fits hfit (Nat.lt_succ_self _)
  obtain rfl : q = ⟨_, h8⟩ := Fin.ext hq
  rw [printSigned_of_fits hr hfit]
  exact (paint_shows (positionGlyph_clean hP _ r 1) m s).after_setSeg hin (signGlyph_clean hP _)

/-- The transactions of a signed print that fits: those of the digits, then the sign's (R125, decision D16). -/
theorem printSigned_trace {W : WidthClass} {x r m : Nat} {s : State} {q : Position} (hr : 2 ≤ r) (hP : s.params.Admissible)
    (hq : q.val = s.cur.toNat + numDigits s.params.ndCap (magnitude W x) r)
    (hfit : overflows s.cur.toNat (numDigits s.params.ndCap (magnitude W x) r + 1) m = false) :
    (printSigned W x r m (beginCommand s)).trace =
      (budgetPositions s.cur.toNat m).map
        (fun p => .wr (digitAddr p) (withDot s p (positionGlyph s.params (magnitude W x) r 1 (p.val - s.cur.toNat)))) ++
      [.wr (digitAddr q) (withDot s q (signGlyph s.params (isNegative W x)))] := by
  rw [printSigned_of_fits hr hfit, ← hq, setSeg_trace, dif_pos q.isLt, paint_trace (positionGlyph_clean hP _ r 1),
    signGlyph_clean hP, withDot, paintFrom_dots]
  rfl

/-- Settles O49: the shown bytes and the transactions are those of the digits and the sign. -/
theorem signedPrintShowsDigitsAndSign : Obligations.SignedPrintShowsDigitsAndSign := by
  rintro W val rdx mxd s k hr hP rfl hfit
  obtain ⟨h8, hin⟩ := inBudget_of_fits hfit (Nat.lt_succ_self _)
  have hshows := printSigned_shows (q := ⟨_, h8⟩) hr hP rfl hfit
  refine ⟨_, ⟨_, h8⟩, exec_printSigned .., hshows.frame, rfl, hin, fun p hp => ⟨hshows.coherent p hp, ?seg⟩, ?trace⟩
  case seg => rw [hshows.seg p hp, Function.update_apply, signGlyph]
  case trace => rw [printSigned_trace (q := ⟨_, h8⟩) hr hP rfl hfit, hshows.combined_eq hin, Function.update_self]

/-- A value whose print leaves a position of the display free is below the power of its digit count. -/
theorem lt_pow_of_signed_fits {cap cur v r m : Nat} (hr : 2 ≤ r) (hcap : cap = 8 ∨ cap = 9)
    (hfit : overflows cur (numDigits cap v r + 1) m = false) : v < r ^ numDigits cap v r := by
  have hroom := (overflows_eq_false_iff (Nat.succ_pos _)).1 hfit
  exact lt_pow_of_fits hr (by omega)

/-- Settles O51: the magnitude is the absolute value, its counted digits are shown, and the sign stands left of them. -/
theorem signedDigitsDenoteTheValue : Obligations.SignedDigitsDenoteTheValue := by
  rintro W val rdx mxd s k hr hP rfl hfit
  have hcap := hP.cap
  have hcut := cutValue_lt W val
  obtain ⟨habs, -⟩ := magnitudeIsExact W _ hcut
  obtain ⟨h8, hin⟩ := inBudget_of_fits hfit (Nat.lt_succ_self _)
  have hshows := printSigned_shows (q := ⟨_, h8⟩) hr hP rfl hfit
  refine ⟨_, fun j => magnitude W (cutValue W val) / rdx.toNat ^ j % rdx.toNat, exec_printSigned .., ?value,
    fun j hj => ⟨Nat.mod_lt _ (by omega), ?digit⟩, h8, ?sign⟩
  case value =>
    rw [← habs, ← sum_digits (lt_pow_of_signed_fits hr hcap hfit)]
  case digit =>
    obtain ⟨hj8, hjin⟩ := inBudget_of_fits hfit (Nat.lt_succ_of_lt hj)
    refine ⟨hj8, (hshows.seg _ hjin).trans ?_⟩
    rw [Function.update_of_ne (by simpa using hj.ne), Nat.add_sub_cancel_left]
    exact positionGlyph_of_lt_numDigits hr (by omega) hj (.inr le_rfl)
  case sign =>
    refine (hshows.seg _ hin).trans ?_
    simp only [Function.update_self, signGlyph, signedValue_neg_iff hcut]

/-- A signed print of a non-negative value that fits shows blanks above its digits. -/
theorem printSigned_blank_above {W : WidthClass} {x r m : Nat} {s : State} (hr : 2 ≤ r) (hP : s.params.Admissible)
    (hneg : isNegative W x = false) (hfit : overflows s.cur.toNat (numDigits s.params.ndCap x r + 1) m = false)
    {p : Position} (hlo : s.cur.toNat + numDigits s.params.ndCap x r ≤ p.val) (hhi : p.val < s.cur.toNat + m) :
    (printSigned W x r m (beginCommand s)).seg[p.val] = s.params.segOff ∧
      Coherent (printSigned W x r m (beginCommand s)) p := by
  have hmag : magnitude W x = x := magnitude_of_nonneg hneg
  have hpos := numDigits_pos s.params.ndCap x r
  obtain ⟨h8, -⟩ := inBudget_of_fits hfit (Nat.lt_succ_self _)
  have hshows := printSigned_shows (q := ⟨_, h8⟩) hr hP (by rw [hmag]) (by rwa [hmag])
  have hp : inBudget s.cur.toNat m p = true := inBudget_iff.2 (by omega)
  refine ⟨(hshows.seg p hp).trans ?_, hshows.coherent p hp⟩
  rw [Function.update_apply, hmag, hneg]
  split
  case isTrue => rfl
  case isFalse =>
    exact positionGlyph_above hr (lt_pow_of_signed_fits hr hP.cap hfit) (by omega) (by omega)

/-- Settles O52: the earlier print keeps the cursor and the parameters, whatever else it did. -/
theorem nonNegativePrintErasesAnOldSign : Obligations.NonNegativePrintErasesAnOldSign := by
  rintro W x y rdx mxd s t k hr hP hexec hneg rfl hfit
  obtain rfl := next_inj ((exec_printSigned W x rdx mxd s).symm.trans hexec)
  have hcur : (printSigned W (cutValue W x) rdx.toNat mxd.toNat (beginCommand s)).cur = s.cur := printSigned_cur ..
  have hparams : (printSigned W (cutValue W x) rdx.toNat mxd.toNat (beginCommand s)).params = s.params :=
    printSigned_keeps (P := fun t => t.params = s.params) (by simp) W _ _ _ _ rfl
  refine ⟨_, exec_printSigned .., (printSigned_cur ..).trans hcur, fun p hlo hhi => ?_⟩
  rw [← hparams] at hP hlo hfit ⊢
  rw [← hcur] at hlo hhi hfit
  exact printSigned_blank_above hr hP hneg hfit hlo hhi

end Sys2Proof.Machine
end

section
/-! SUPPORT. The LEDs (R150 to R152, R155, R156): what one LED write and the LED loop do is said once, by `WritesLeds`; no other
command but `CLEAR` touches an LED register; and the look-up and board commands neither write the display nor depend on it. -/

namespace Sys2Proof.Machine

/-! ### `SETLED`, `LEDSON`, `LEDSOFF` (R150 to R152) -/

theorem legalColor_of_le {b : Byte} (h : b.toNat ≤ 2) : legalColor b = true := decide_eq_true h

theorem legalColor_of_ge {b : Byte} (h : 3 ≤ b.toNat) : ¬ legalColor b = true := by
  rw [legalColor, decide_eq_true_eq]
  omega

theorem exec_setled_of_legal {a b : Byte} (ha : a.toNat < 8) (hb : legalColor b = true) (s : State) :
    exec (.setled a b) s = .next (memWrite (ledAddr ⟨a.toNat, ha⟩) b (beginCommand s)) := by
  rw [exec_eq_body, body, dif_pos ha, if_pos hb]

theorem exec_setled_of_illegal (a : Byte) {b : Byte} (hb : ¬ legalColor b = true) (s : State) :
    exec (.setled a b) s = .next (beginCommand s) := by
  rw [exec_eq_body]
  simp only [body, if_neg hb, dite_eq_ite, ite_self]

theorem exec_ledson_of_legal (a : Byte) {b : Byte} (hb : legalColor b = true) (s : State) :
    exec (.ledson a b) s = .next (writeLeds a b (beginCommand s)) := by
  rw [exec_eq_body, body, if_pos hb]

theorem exec_ledson_of_illegal (a : Byte) {b : Byte} (hb : ¬ legalColor b = true) (s : State) :
    exec (.ledson a b) s = .next (beginCommand s) := by
  rw [exec_eq_body, body, if_neg hb]

theorem exec_ledsoff (a : Byte) (s : State) :
    exec (.ledsoff a) s = .next (writeLeds a (colorByte s.params.colorOff) (beginCommand s)) :=
  exec_eq_body (.ledsoff a) s

theorem ascending_filter_val_eq : ∀ k : LedIndex, ascending.filter (fun l => decide (l.val = k.val)) = [k] := by decide

theorem memWrite_led_writesLeds (k : LedIndex) (v : Byte) (s : State) :
    WritesLeds s (memWrite (ledAddr k) v (beginCommand s)) (fun l => decide (l.val = k.val)) v where
  trace := by rw [ascending_filter_val_eq]; rfl
  stored := by
    intro l hl
    obtain rfl : l = k := Fin.ext (of_decide_eq_true hl)
    exact Memory.read_write_same ..
  chip := fun _ ha => Memory.read_write_other _ _ (fun heq => ha ⟨k, decide_eq_true rfl, heq⟩)
  registers := ⟨rfl, rfl, rfl⟩
  response := rfl
  environment := ⟨rfl, rfl, rfl, rfl⟩

theorem writeLeds_writesSelected (mask v : Byte) (s : State) :
    WritesLeds s (writeLeds mask v (beginCommand s)) (fun l => mask.getLsbD l.val) v where
  trace := writeLeds_trace ..
  stored := fun l hl => by rw [writeLeds_read, if_pos ⟨l, hl, rfl⟩]
  chip := fun a ha => by
    rw [writeLeds_read, if_neg (fun ⟨l, hl, heq⟩ => ha ⟨l, hl, heq.symm⟩), beginCommand_chip]
  registers := (beginCommand_silentNoop s).registers.trans (writeLeds_registers ..)
  response := writeLeds_response ..
  environment := ⟨writeLeds_pending .., writeLeds_scans .., writeLeds_resets .., writeLeds_params ..⟩

/-- Settles O53. -/
theorem setledWritesOneRegister : Obligations.SetledWritesOneRegister := by
  intro a b s ha hb
  exact ⟨_, exec_setled_of_legal (Nat.lt_succ_of_le ha) (legalColor_of_le hb) s, memWrite_led_writesLeds _ b s⟩

/-- Settles O54: both commands run the same loop, with the color operand or with the off color. -/
theorem ledMaskCommandsWriteTheSelected : Obligations.LedMaskCommandsWriteTheSelected := by
  intro a b s
  exact ⟨fun hb => ⟨_, exec_ledson_of_legal a (legalColor_of_le hb) s, writeLeds_writesSelected a b s⟩,
    _, exec_ledsoff a s, writeLeds_writesSelected a _ s⟩

/-- Settles O55: the color is checked before anything is written. -/
theorem illegalColorIsSilent : Obligations.IllegalColorIsSilent := by
  intro a b s hb i hi
  have hillegal := legalColor_of_ge hb
  refine ⟨_, ?_, beginCommand_silentNoop s⟩
  obtain rfl | rfl := List.mem_pair.1 hi
  exacts [exec_setled_of_illegal a hillegal s, exec_ledson_of_illegal a hillegal s]

/-! ### Which commands change an LED register (R156) -/

/-- No other command but `CLEAR` changes what is known of an LED register; `REFRESH` writes digit registers only (R200). -/
theorem body_read_led (l : LedIndex) {i : Instr} (hled : ¬ IsLedCommand i) (hclear : i ≠ .clear) (s : State) :
    Memory.read (body i s).chip (ledAddr l).val = Memory.read s.chip (ledAddr l).val := by
  have hset : ∀ pos g t, Memory.read t.chip (ledAddr l).val = Memory.read s.chip (ledAddr l).val →
      Memory.read (setSeg pos g t).chip (ledAddr l).val = Memory.read s.chip (ledAddr l).val :=
    fun pos g t ht => (setSeg_read_led l pos g t).trans ht
  cases i with
  | enc | swpb | getbtn => rfl
  | swpp | swpl | setcur => simp only [body]; split <;> rfl
  | setseg | setdig => exact setSeg_read_led ..
  | doton | dotoff => simp only [body]; split; exacts [render_read_led .., rfl]
  | setdots | refresh => exact renderAll_read_led ..
  | clear => exact absurd rfl hclear
  | printu8 | printu16 | printu32 => exact printUnsigned_keeps hset _ _ _ _ s rfl
  | prints8 | prints16 | prints32 => exact printSigned_keeps hset _ _ _ _ s rfl
  | setled x b => exact absurd (.inl ⟨x, b, rfl⟩) hled
  | ledson x b => exact absurd (.inr (.inl ⟨x, b, rfl⟩)) hled
  | ledsoff x => exact absurd (.inr (.inr ⟨x, rfl⟩)) hled

/-- Settles O22. -/
theorem ledRegistersWrittenOnlyByLedCommands : Obligations.LedRegistersWrittenOnlyByLedCommands := by
  intro i s t l h hne
  obtain rfl := next_inj ((exec_eq_body i s).symm.trans h)
  by_cases hled : IsLedCommand i
  · obtain on | mask | off := hled
    exacts [.inl on, .inr (.inl mask), .inr (.inr (.inl off))]
  · by_cases hclear : i = .clear
    · exact .inr (.inr (.inr hclear))
    · exact absurd (body_read_led l hled hclear (beginCommand s)) hne

/-! ### What the look-up and board commands depend on (R83, R91 to R93, R156) -/

/-- The look-up commands and the commands of the board driver. -/
inductive LookupOrBoard : Instr → Prop where
  | enc (a : Byte) : LookupOrBoard (.enc a)
  | swpp (a : Byte) : LookupOrBoard (.swpp a)
  | swpl (a : Byte) : LookupOrBoard (.swpl a)
  | swpb (a : Byte) : LookupOrBoard (.swpb a)
  | setled (a b : Byte) : LookupOrBoard (.setled a b)
  | ledson (a b : Byte) : LookupOrBoard (.ledson a b)
  | ledsoff (a : Byte) : LookupOrBoard (.ledsoff a)
  | getbtn : LookupOrBoard .getbtn

theorem lookupOrBoard_of_mem {i : Instr} {a b : Byte}
    (h : i ∈ [.enc a, .swpp a, .swpl a, .swpb a, .setled a b, .ledson a b, .ledsoff a, .getbtn]) : LookupOrBoard i := by
  revert i
  simp only [List.forall_mem_cons]
  exact ⟨.enc a, .swpp a, .swpl a, .swpb a, .setled a b, .ledson a b, .ledsoff a, .getbtn, List.forall_mem_nil _⟩

theorem LookupOrBoard.sameRegisters {i : Instr} (h : LookupOrBoard i) (s : State) : SameRegisters s (body i s) := by
  cases h with
  | enc | swpb | getbtn => exact ⟨rfl, rfl, rfl⟩
  | swpp | swpl => simp only [body]; split <;> exact ⟨rfl, rfl, rfl⟩
  | setled =>
    simp only [body]
    split
    · split <;> exact ⟨rfl, rfl, rfl⟩
    · exact ⟨rfl, rfl, rfl⟩
  | ledson => simp only [body]; split; exacts [writeLeds_registers .., ⟨rfl, rfl, rfl⟩]
  | ledsoff => exact writeLeds_registers ..

/-- Agreement on the parameters of the build and at the ports, whatever the display registers and the chip image. -/
structure SamePorts (s u : State) : Prop where
  params : s.params = u.params
  trace : s.trace = u.trace
  response : s.response = u.response

theorem SamePorts.emit {s u : State} (h : SamePorts s u) (x : Transaction) : SamePorts (emit x s) (emit x u) :=
  ⟨h.params, congrArg (· ++ [x]) h.trace, h.response⟩

theorem SamePorts.respond {s u : State} (h : SamePorts s u) (v : Byte) : SamePorts (respond v s) (respond v u) :=
  ⟨h.params, h.trace, rfl⟩

theorem SamePorts.writeLeds {s u : State} (h : SamePorts s u) (mask v : Byte) :
    SamePorts (writeLeds mask v s) (writeLeds mask v u) where
  params := by simp only [writeLeds_params, h.params]
  trace := by simp only [writeLeds_trace, h.trace]
  response := by simp only [writeLeds_response, h.response]

theorem LookupOrBoard.samePorts {i : Instr} (hi : LookupOrBoard i) {s u : State}
    (hkey : i = .getbtn → Config.keyScan s.scans = Config.keyScan u.scans) (h : SamePorts s u) :
    SamePorts (body i s) (body i u) := by
  cases hi with
  | enc => simp only [body, h.params]; exact h.respond _
  | swpp | swpl => simp only [body]; split; exacts [h.respond _, h]
  | swpb => exact h.respond _
  | setled =>
    simp only [body]
    split
    · split
      exacts [h.emit _, h]
    · exact h
  | ledson => simp only [body]; split; exacts [h.writeLeds _ _, h]
  | ledsoff => simp only [body, h.params]; exact h.writeLeds _ _
  | getbtn =>
    have hread := h.emit (.rdk (Config.keyScan u.scans))
    simp only [body, hkey rfl]
    exact ⟨hread.params, hread.trace, rfl⟩

/-- Settles O27: both runs begin with empty ports, and the body keeps the agreement there. -/
theorem lookupAndBoardCommandsIgnoreTheDisplay : Obligations.LookupAndBoardCommandsIgnoreTheDisplay := by
  intro i a b hmem s u hp hkey
  have hi := lookupOrBoard_of_mem hmem
  have h := hi.samePorts (s := beginCommand s) (u := beginCommand u) hkey ⟨hp, rfl, rfl⟩
  have keeps : ∀ v : State, SameRegisters v (body i (beginCommand v)) :=
    fun v => (beginCommand_silentNoop v).registers.trans (hi.sameRegisters _)
  exact ⟨_, _, exec_eq_body i s, exec_eq_body i u, h.trace, h.response, keeps s, keeps u⟩

end Sys2Proof.Machine
end

section
/-! SUPPORT. The keys (R153, R154, R156, decision D20). The table of R154 is said once by `keyIndex`, the bit of the key-scan
word that each button is; every law of the decoding is read off it bit by bit. -/

namespace Sys2Proof.Machine

/-! ### The table of R154 -/

/-- The bit of the key-scan word that bit `j` of the button mask is (R154). -/
def keyIndex (j : Nat) : Nat := if j < 4 then 28 - 8 * j else 8 * (7 - j)

/-- The bit of the button mask that bit `i` of the key-scan word is, where `i` is a multiple of 4 (R154). -/
def buttonIndex (i : Nat) : Nat := if i % 8 = 4 then (28 - i) / 8 else 7 - i / 8

theorem keyIndex_mod_four (j : Nat) : keyIndex j % 4 = 0 := by
  unfold keyIndex
  split <;> omega

theorem keyIndex_lt (j : Nat) : keyIndex j < 32 := by
  unfold keyIndex
  split <;> omega

theorem buttonIndex_lt {i : Nat} (hi : i < 32) : buttonIndex i < 8 := by
  unfold buttonIndex
  split <;> omega

theorem buttonIndex_keyIndex {j : Nat} (hj : j < 8) : buttonIndex (keyIndex j) = j := by
  unfold buttonIndex keyIndex
  split <;> split <;> omega

theorem keyIndex_buttonIndex {i : Nat} (hi : i < 32) (h4 : i % 4 = 0) : keyIndex (buttonIndex i) = i := by
  unfold buttonIndex keyIndex
  split <;> split <;> omega

/-- The table of R154, for all eight bits of the result. -/
theorem decodeKeys_getLsbD_keyIndex (raw : KeyWord) {j : Nat} (hj : j < 8) :
    (decodeKeys raw).getLsbD j = raw.getLsbD (keyIndex j) := by
  unfold keyIndex
  split
  case isTrue h => exact (decodeKeys_getLsbD raw h).1
  case isFalse h =>
    obtain ⟨-, hhigh⟩ := decodeKeys_getLsbD raw (j := 7 - j) (by omega)
    rwa [Nat.sub_sub_self (by omega)] at hhigh

/-! ### Stray bits (R49) -/

/-- The two masks of the statements: the key bits are the multiples of 4, the stray bits are the others (R49). -/
theorem keyMasks_getLsbD : ∀ i : Fin 32, (0x11111111#32).getLsbD i.val = decide (i.val % 4 = 0) ∧
    (0xEEEEEEEE#32).getLsbD i.val = decide (i.val % 4 ≠ 0) := by decide

theorem strayFree_iff (raw : KeyWord) :
    raw &&& 0xEEEEEEEE#32 = 0#32 ↔ ∀ i, i < 32 → i % 4 ≠ 0 → raw.getLsbD i = false := by
  have hbit : ∀ i, i < 32 → (raw &&& 0xEEEEEEEE#32).getLsbD i = (raw.getLsbD i && decide (i % 4 ≠ 0)) := fun i hi => by
    rw [BitVec.getLsbD_and, (keyMasks_getLsbD ⟨i, hi⟩).2]
  constructor
  · intro h i hi h4
    have hi' := hbit i hi
    rwa [h, decide_eq_true h4, Bool.and_true, BitVec.getLsbD_zero, eq_comm] at hi'
  · intro h
    refine BitVec.eq_of_getLsbD_eq fun i hi => ?_
    rw [hbit i hi, BitVec.getLsbD_zero, Bool.and_eq_false_imp]
    intro htrue
    exact decide_eq_false fun h4 => Bool.false_ne_true ((h i hi h4).symm.trans htrue)

theorem decodeKeys_or (x y : KeyWord) : decodeKeys (x ||| y) = decodeKeys x ||| decodeKeys y :=
  BitVec.eq_of_getLsbD_eq fun j hj => by simp only [BitVec.getLsbD_or, decodeKeys_getLsbD_keyIndex _ hj]

/-- The decoding reads key bits only (decision D20). -/
theorem decodeKeys_and_keyBits (raw : KeyWord) : decodeKeys raw = decodeKeys (raw &&& 0x11111111#32) := by
  refine BitVec.eq_of_getLsbD_eq fun j hj => ?_
  rw [decodeKeys_getLsbD_keyIndex _ hj, decodeKeys_getLsbD_keyIndex _ hj, BitVec.getLsbD_and,
    (keyMasks_getLsbD ⟨keyIndex j, keyIndex_lt j⟩).1, decide_eq_true (keyIndex_mod_four j), Bool.and_true]

/-- The shift formula of the source lays four bits of the word on each bit of the mask, seven places apart. -/
theorem shiftFormula_getLsbD (raw : KeyWord) {j : Nat} (hj : j < 8) :
    (swapBits ((raw ||| raw >>> 7 ||| raw >>> 14 ||| raw >>> 21).setWidth 8)).getLsbD j =
      (raw.getLsbD (7 - j) || raw.getLsbD (7 + (7 - j)) || raw.getLsbD (14 + (7 - j)) || raw.getLsbD (21 + (7 - j))) := by
  rw [swapBits_getLsbD _ hj, BitVec.getLsbD_setWidth, decide_eq_true (by omega), Bool.true_and]
  simp only [BitVec.getLsbD_or, BitVec.getLsbD_ushiftRight]

/-- Settles O58: of four bits seven places apart only one is a key bit, and it is the one R154 tabulates. -/
theorem keyDecodingAgreesWithTheShiftFormula : Obligations.KeyDecodingAgreesWithTheShiftFormula := by
  intro raw hraw
  have hstray := (strayFree_iff raw).1 hraw
  refine BitVec.eq_of_getLsbD_eq fun j hj => ?_
  rw [decodeKeys_getLsbD_keyIndex raw hj, shiftFormula_getLsbD raw hj]
  interval_cases j <;> simp [keyIndex, hstray, -BitVec.getLsbD_eq_getElem]

/-! ### The key-scan word of a button mask -/

/-- The key-scan word without stray bits whose decoding is the mask. -/
def keyWordOf (mask : Byte) : KeyWord :=
  BitVec.ofFnLE fun i => decide (i.val % 4 = 0) && mask.getLsbD (buttonIndex i.val)

theorem keyWordOf_getLsbD (mask : Byte) {i : Nat} (hi : i < 32) :
    (keyWordOf mask).getLsbD i = (decide (i % 4 = 0) && mask.getLsbD (buttonIndex i)) := by
  rw [keyWordOf, BitVec.getLsbD_ofFnLE, dif_pos hi]

theorem keyWordOf_strayFree (mask : Byte) : keyWordOf mask &&& 0xEEEEEEEE#32 = 0#32 := by
  refine (strayFree_iff _).2 fun i hi h4 => ?_
  rw [keyWordOf_getLsbD mask hi, decide_eq_false h4, Bool.false_and]

theorem decodeKeys_keyWordOf (mask : Byte) : decodeKeys (keyWordOf mask) = mask := by
  refine BitVec.eq_of_getLsbD_eq fun j hj => ?_
  rw [decodeKeys_getLsbD_keyIndex _ hj, keyWordOf_getLsbD mask (keyIndex_lt j), decide_eq_true (keyIndex_mod_four j),
    Bool.true_and, buttonIndex_keyIndex hj]

theorem keyWordOf_decodeKeys {raw : KeyWord} (h : raw &&& 0xEEEEEEEE#32 = 0#32) : keyWordOf (decodeKeys raw) = raw := by
  refine BitVec.eq_of_getLsbD_eq fun i hi => ?_
  rw [keyWordOf_getLsbD _ hi]
  by_cases h4 : i % 4 = 0
  · rw [decide_eq_true h4, Bool.true_and, decodeKeys_getLsbD_keyIndex raw (buttonIndex_lt hi), keyIndex_buttonIndex hi h4]
  · rw [decide_eq_false h4, Bool.false_and, (strayFree_iff raw).1 h i hi h4]

/-- Settles O59: on words without stray bits `keyWordOf` is the inverse of the decoding. -/
theorem keyDecodingIsABijectionOnKeyBits : Obligations.KeyDecodingIsABijectionOnKeyBits := by
  refine ⟨decodeKeys_or, decodeKeys_and_keyBits, fun mask => ⟨keyWordOf mask, ?decodes, ?unique⟩⟩
  case decodes => exact ⟨keyWordOf_strayFree mask, decodeKeys_keyWordOf mask⟩
  case unique =>
    rintro raw ⟨hraw, rfl⟩
    exact (keyWordOf_decodeKeys hraw).symm

/-! ### `GETBTN` at the port (R153) -/

theorem exec_getbtn (s : State) :
    exec .getbtn s = .next (readButtons (Config.keyScan s.scans) (beginCommand s)) :=
  exec_eq_body .getbtn s

/-- Settles O57. -/
theorem getbtnRespondsTheDecodedKeys : Obligations.GetbtnRespondsTheDecodedKeys := by
  intro s
  exact ⟨_, _, decodeKeys (Config.keyScan s.scans), exec_getbtn s, rfl, rfl, rfl, fun _ hj => decodeKeys_getLsbD _ hj,
    ⟨rfl, rfl, rfl⟩, fun _ => rfl, rfl, rfl, rfl, rfl⟩

end Sys2Proof.Machine
end

section
/-! SUPPORT. Every step and every command answers a next state (R170, R177); and what the degraded outcomes R171 to R173 name is
what the next state shows. A command without a print has one way per outcome; a print has three, in the order of R173. -/

namespace Sys2Proof.Machine

/-! ### Nothing faults (R170) -/

/-- A performed word touches neither the host's moves nor the parameters (R30). -/
theorem performWord_host {w : CommandWord} {s t : State} (h : performWord w s = .next t) :
    t.pending = s.pending ∧ t.params = s.params := by
  obtain ⟨i, -, hw⟩ | ⟨-, hw⟩ := performWord_cases w s
  · obtain rfl := next_inj (hw.symm.trans h)
    obtain ⟨hpending, -, hparams⟩ := body_host i (beginCommand s)
    exact ⟨hpending, hparams⟩
  · obtain rfl := next_inj (hw.symm.trans h)
    exact ⟨rfl, rfl⟩

/-- Settles O12: a step waits, or takes the first move and performs it, as a word, as a reset or as both. -/
theorem everyStepAnswersNext : Obligations.EveryStepAnswersNext := by
  intro s
  obtain ⟨hp, hstep⟩ | ⟨w, rest, t, hp, hw, hstep⟩ | ⟨rest, hp, hstep⟩ | ⟨w, done, rest, t, hp, hw, hstep⟩ := step_cases s
  · exact ⟨s, hstep, by rw [hp, List.tail_nil], rfl⟩
  · obtain ⟨hpending, hparams⟩ := performWord_host hw
    exact ⟨t, hstep, by rw [hpending, hp, List.tail_cons], hparams⟩
  · exact ⟨_, hstep, by rw [hardReset_pending, hp, List.tail_cons], rfl⟩
  · obtain ⟨hpending, hparams⟩ := performWord_host hw
    exact ⟨_, hstep, by rw [abortedBy_pending, hpending, hp, List.tail_cons], hparams⟩

/-- Settles O15: every meaning is a body, and a body keeps both invariants. -/
theorem everyCommandCompletes : Obligations.EveryCommandCompletes := by
  intro i s
  exact ⟨_, exec_eq_body i s, body_segmentsClean i (s := beginCommand s), body_cursorInRange i (s := beginCommand s)⟩

/-! ### An index above 7 (R171 (a), R172) -/

theorem exec_setcur_of_ge {a : Byte} (h : 8 ≤ a.toNat) (s : State) : exec (.setcur a) s = .next (beginCommand s) := by
  rw [exec_eq_body, body, if_neg (Nat.not_le.2 h)]

theorem exec_setled_of_ge {a : Byte} (h : 8 ≤ a.toNat) (b : Byte) (s : State) :
    exec (.setled a b) s = .next (beginCommand s) := by
  rw [exec_eq_body, body, dif_neg (Nat.not_lt.2 h)]

/-- Settles O42: each of the commands checks its index before it does anything. -/
theorem outOfRangeIndexIsSilent : Obligations.OutOfRangeIndexIsSilent := by
  intro a b s h i hi
  refine ⟨_, ?_, beginCommand_silentNoop s⟩
  simp only [List.mem_cons, List.not_mem_nil, or_false] at hi
  obtain rfl | rfl | rfl | rfl | rfl | rfl | rfl | rfl := hi
  · exact exec_swpp_of_ge h s
  · exact exec_swpp_of_ge h s
  · rw [exec_setseg, setSeg_out h]
  · rw [exec_setdig, setSeg_out h]
  · exact exec_doton_of_ge h s
  · exact exec_dotoff_of_ge h s
  · exact exec_setcur_of_ge h s
  · exact exec_setled_of_ge h b s

/-! ### `NOOP` of a command that shows something at the ports (R171 (a), R172) -/

/-- The command emits or responds something. -/
def Speaks (t : State) : Prop := ¬ (t.trace = [] ∧ t.response = none)

theorem RendersOne.speaks {s t : State} {p : Position} (h : RendersOne s t p) : Speaks t :=
  fun hsilent => List.cons_ne_nil _ _ (h.trace.symm.trans hsilent.1)

theorem respond_speaks (v : Byte) (s : State) : Speaks (respond v s) := fun hsilent => Option.some_ne_none _ hsilent.2

theorem memWrite_speaks (a : RegAddr) (v : Byte) (s : State) : Speaks (memWrite a v s) :=
  fun hsilent => List.append_ne_nil_of_right_ne_nil _ (List.cons_ne_nil _ _) hsilent.1

theorem NoopIsSilence.of_silent {ds : List Degraded} {s t : State} (hds : .noop ∈ ds) (h : SilentNoop s t) :
    NoopIsSilence ds s t :=
  ⟨iff_of_true hds ⟨h.trace, h.response⟩, fun _ => h⟩

theorem NoopIsSilence.of_speaks {ds : List Degraded} {s t : State} (hds : .noop ∉ ds) (h : Speaks t) :
    NoopIsSilence ds s t :=
  ⟨iff_of_false hds h, fun hmem => absurd hmem hds⟩

/-- A command whose only outcome is `NOOP`, under the condition `c`: it is silent under `c` and speaks otherwise. -/
theorem noopOutcomes {c : Prop} [Decidable c] {i : Instr} {s : State}
    (hsilent : c → ∃ t, exec i s = .next t ∧ SilentNoop s t) (hspeaks : ¬ c → ∃ t, exec i s = .next t ∧ Speaks t) :
    ∃ t, exec i s = .next t ∧ NoopIsSilence (if c then [.noop] else []) s t ∧
      .overflow ∉ (if c then [Degraded.noop] else []) ∧ .blank ∉ (if c then [Degraded.noop] else []) := by
  by_cases hc : c
  · obtain ⟨t, hexec, ht⟩ := hsilent hc
    rw [if_pos hc]
    exact ⟨t, hexec, .of_silent (by decide) ht, by decide, by decide⟩
  · obtain ⟨t, hexec, ht⟩ := hspeaks hc
    rw [if_neg hc]
    exact ⟨t, hexec, .of_speaks (by decide) ht, by decide, by decide⟩

theorem exec_setled_tells (a b : Byte) (s : State) :
    ∃ t, exec (.setled a b) s = .next t ∧ OutcomesTell (.setled a b) (degraded (.setled a b) s) s t := by
  refine noopOutcomes (fun h => ?silent) (fun h => ?speaks)
  case silent =>
    obtain hindex | hcolor := h
    · exact outOfRangeIndexIsSilent a b s hindex _ (by simp)
    · exact illegalColorIsSilent a b s hcolor _ (by simp)
  case speaks => exact ⟨_, exec_setled_of_legal (by omega) (legalColor_of_le (by omega)) s, memWrite_speaks _ _ _⟩

/-! ### `ENC`, `SETDIG`, `SETCUR`, `LEDSON` (R172) -/

theorem exec_enc_tells (a : Byte) (s : State) :
    ∃ t, exec (.enc a) s = .next t ∧ OutcomesTell (.enc a) (degraded (.enc a) s) s t := by
  refine ⟨_, exec_enc a s, ?_⟩
  simp only [OutcomesTell, degraded, respond_response]
  obtain h | h := Nat.lt_or_ge a.toNat 16
  case inl => simp [Nat.not_le.2 h, glyph_of_lt s.params h, h]
  case inr => simp [h, glyph_of_ge s.params h]

/-- `SETDIG` is silent out of range; in range the position shows the all-off byte from 16 on, and the table entry below. -/
theorem exec_setdig_tells (a b : Byte) {s : State} (hP : s.params.Admissible) :
    ∃ t, exec (.setdig a b) s = .next t ∧ OutcomesTell (.setdig a b) (degraded (.setdig a b) s) s t := by
  simp only [OutcomesTell, degraded]
  obtain ha | ha := Nat.lt_or_ge a.toNat 8
  case inr =>
    obtain ⟨t, hexec, ht⟩ := outOfRangeIndexIsSilent a b s ha (.setdig a b) (by simp)
    rw [if_pos ha]
    exact ⟨t, hexec, .of_silent (by decide) ht, by decide, by decide, fun h => absurd h (by decide),
      fun h => absurd (by decide) h⟩
  case inl =>
    have hspeaks : Speaks (setSeg a.toNat (glyph s.params b.toNat) (beginCommand s)) := (setSeg_rendersOne ha _ s).speaks
    have hseg : (setSeg a.toNat (glyph s.params b.toNat) (beginCommand s)).seg[a.toNat] = glyph s.params b.toNat := by
      rw [setSeg_seg a.toNat _ _ ⟨a.toNat, ha⟩, if_pos rfl, glyph_clean hP]
    rw [if_neg (Nat.not_le.2 ha)]
    refine ⟨_, exec_setdig a b s, ?_⟩
    obtain hb | hb := Nat.lt_or_ge b.toNat 16
    case inl =>
      rw [if_neg (Nat.not_le.2 hb)]
      exact ⟨.of_speaks (by decide) hspeaks, by decide, fun _ => by decide, fun h => absurd h (by decide),
        fun _ _ => ⟨ha, hb, hseg.trans (glyph_of_lt s.params hb)⟩⟩
    case inr =>
      rw [if_pos hb]
      exact ⟨.of_speaks (by decide) hspeaks, by decide, fun h => absurd h (by decide),
        fun _ => ⟨hb, ha, hseg.trans (glyph_of_ge s.params hb)⟩, fun _ h => absurd (by decide) h⟩

/-- A cursor in range is no operand that `SETCUR` ignores. -/
theorem exec_setcur_tells (a : Byte) {s : State} (hcur : CursorInRange s) :
    ∃ t, exec (.setcur a) s = .next t ∧ OutcomesTell (.setcur a) (degraded (.setcur a) s) s t := by
  simp only [OutcomesTell, degraded]
  obtain h | h := Nat.lt_or_ge a.toNat 8
  case inl =>
    rw [if_neg (Nat.not_le.2 h)]
    exact ⟨_, exec_setcur_of_le (Nat.le_of_lt_succ h) s, iff_of_false (by decide) (not_not.2 rfl),
      fun hmem => absurd hmem (by decide), by decide, by decide⟩
  case inr =>
    have hne : s.cur ≠ a := fun heq => by
      rw [CursorInRange, heq] at hcur
      omega
    rw [if_pos h]
    exact ⟨_, exec_setcur_of_ge h s, iff_of_true (by decide) hne, fun _ => beginCommand_silentNoop s, by decide, by decide⟩

theorem exec_ledson_tells (a b : Byte) (s : State) :
    ∃ t, exec (.ledson a b) s = .next t ∧ OutcomesTell (.ledson a b) (degraded (.ledson a b) s) s t := by
  simp only [OutcomesTell, degraded]
  obtain h | h := Nat.lt_or_ge b.toNat 3
  case inl =>
    have hlegal : legalColor b = true := legalColor_of_le (Nat.le_of_lt_succ h)
    rw [if_neg (Nat.not_le.2 h)]
    exact ⟨_, exec_ledson_of_legal a hlegal s, fun hmem => absurd hmem (by decide), by decide, by decide,
      fun _ => ⟨hlegal, writeLeds_writesSelected a b s⟩⟩
  case inr =>
    rw [if_pos h]
    exact ⟨_, exec_ledson_of_illegal a (legalColor_of_ge h) s, fun _ => ⟨beginCommand_silentNoop s, h⟩, by decide, by decide,
      fun hmem => absurd (by decide) hmem⟩

/-! ### The outcomes named for a print, in the order of R173 -/

section

variable {cap cur n v r m : Nat}

theorem printDegraded_of_radix (hr : r < 2) : printDegraded cap cur n v r m = [.noop] := if_pos hr

theorem printDegraded_of_overflow (hr : 2 ≤ r) (h : overflows cur n m = true) :
    printDegraded cap cur n v r m = .overflow :: (if 8 < cur + m then [.noop] else []) := by
  rw [printDegraded, if_neg (Nat.not_lt.2 hr), if_pos h]

theorem printDegraded_of_fits (hr : 2 ≤ r) (h : overflows cur n m = false) :
    printDegraded cap cur n v r m =
      (if (List.range (numDigits cap v r)).any (fun j => decide (16 ≤ v / r ^ j % r)) then [.blank] else []) ++
        (if 8 < cur + m then [.noop] else []) := by
  rw [printDegraded, if_neg (Nat.not_lt.2 hr), if_neg (ne_true_of_eq_false h)]

theorem noop_mem_printDegraded (hr : 2 ≤ r) : .noop ∈ printDegraded cap cur n v r m ↔ 8 < cur + m := by
  cases h : overflows cur n m with
  | true => simp [printDegraded_of_overflow hr h]
  | false => simp [printDegraded_of_fits hr h]

theorem overflow_mem_printDegraded (hr : 2 ≤ r) :
    .overflow ∈ printDegraded cap cur n v r m ↔ overflows cur n m = true := by
  cases h : overflows cur n m with
  | true => simp [printDegraded_of_overflow hr h]
  | false => simp [printDegraded_of_fits hr h]

theorem blank_mem_printDegraded (hr : 2 ≤ r) :
    .blank ∈ printDegraded cap cur n v r m ↔
      overflows cur n m = false ∧ ∃ j, j < numDigits cap v r ∧ 16 ≤ v / r ^ j % r := by
  cases h : overflows cur n m with
  | true => simp [printDegraded_of_overflow hr h]
  | false => simp [printDegraded_of_fits hr h]

end

/-! ### The positions a print writes (R122, R123, R172) -/

theorem writesDigit_wr_digitAddr (p q : Position) (g : Byte) :
    Transaction.writesDigit p (.wr (digitAddr q) g) = decide (q = p) := by
  rw [Transaction.writesDigit, decide_eq_decide, Fin.ext_iff, digitAddr_inj]

/-- The writes of a budget go to the digit registers of its positions. -/
theorem budgetWrites_any (cur m : Nat) (g : Position → Byte) (p : Position) :
    ((budgetPositions cur m).map (fun q => Transaction.wr (digitAddr q) (g q))).any (Transaction.writesDigit p) =
      inBudget cur m p := by
  rw [Bool.eq_iff_iff, List.any_map, List.any_eq_true]
  simp [budgetPositions, writesDigit_wr_digitAddr, mem_ascending]

theorem positionsWritten_eq_budget {tr : List Transaction} {cur m : Nat}
    (h : ∀ p, tr.any (Transaction.writesDigit p) = inBudget cur m p) : positionsWritten tr = budgetPositions cur m :=
  List.filter_congr fun p _ => h p

/-- With the cursor on the display a position is dropped exactly where the budget passes the display. -/
theorem positionsWritten_lt_iff {tr : List Transaction} {cur m : Nat} (hcur : cur ≤ 7)
    (h : ∀ p, tr.any (Transaction.writesDigit p) = inBudget cur m p) :
    (positionsWritten tr).length < m ↔ 8 < cur + m := by
  rw [positionsWritten_eq_budget h, budgetPositions_length]
  omega

/-! ### The three ways of a print (R173 (2)) -/

/-- A digit of 16 or more shows as blank, as a leading zero does (R171 (c)). -/
theorem positionGlyph_of_digit_ge (P : Params) {v r pad j : Nat} (h : 16 ≤ v / r ^ j % r) :
    positionGlyph P v r pad j = P.segOff := by
  rw [positionGlyph, glyph_of_ge P h, ite_self]

section

variable {s t : State} {v n r m : Nat}

theorem PrintOutcomes.of_radix (k pad : Nat) (hr : r < 2) (h : SilentNoop s t) :
    PrintOutcomes (printDegraded s.params.ndCap s.cur.toNat n v r m) s t v k n r m pad where
  radix := fun _ => ⟨printDegraded_of_radix hr, h⟩
  overflow := fun h2 => absurd hr (Nat.not_lt.2 h2)
  run := fun h2 => absurd hr (Nat.not_lt.2 h2)
  digits := fun h2 => absurd hr (Nat.not_lt.2 h2)
  blank := fun h2 => absurd hr (Nat.not_lt.2 h2)
  table := fun h2 => absurd hr (Nat.not_lt.2 h2)
  dropped := fun h2 => absurd hr (Nat.not_lt.2 h2)

theorem PrintOutcomes.of_overflow (k pad : Nat) (hr : 2 ≤ r) (hcur : CursorInRange s)
    (hover : overflows s.cur.toNat n m = true)
    (hwritten : ∀ p, t.trace.any (Transaction.writesDigit p) = inBudget s.cur.toNat m p)
    (hrun : ∀ p : Position, inBudget s.cur.toNat m p = true → t.seg[p.val] = s.params.segMinus) :
    PrintOutcomes (printDegraded s.params.ndCap s.cur.toNat n v r m) s t v k n r m pad := by
  have hmem : .overflow ∈ printDegraded s.params.ndCap s.cur.toNat n v r m := (overflow_mem_printDegraded hr).2 hover
  have hblank : .blank ∉ printDegraded s.params.ndCap s.cur.toNat n v r m := fun h =>
    ne_true_of_eq_false ((blank_mem_printDegraded hr).1 h).1 hover
  exact
    { radix := fun h2 => absurd h2 (Nat.not_lt.2 hr)
      overflow := fun _ => overflow_mem_printDegraded hr
      run := fun _ _ => ⟨hblank, hrun⟩
      digits := fun _ h => absurd hmem h
      blank := fun _ h => absurd h hblank
      table := fun _ h => absurd hmem h
      dropped := fun _ => (noop_mem_printDegraded hr).trans (positionsWritten_lt_iff hcur hwritten).symm }

theorem PrintOutcomes.of_fits {pad : Nat} (hr : 2 ≤ r) (hcur : CursorInRange s)
    (hfit : overflows s.cur.toNat n m = false) (hn : numDigits s.params.ndCap v r ≤ n)
    (hwritten : ∀ p, t.trace.any (Transaction.writesDigit p) = inBudget s.cur.toNat m p)
    (hdigits : ∀ j, j < numDigits s.params.ndCap v r → ∀ h : s.cur.toNat + j < 8,
      t.seg[s.cur.toNat + j] = positionGlyph s.params v r pad j) :
    PrintOutcomes (printDegraded s.params.ndCap s.cur.toNat n v r m) s t v (numDigits s.params.ndCap v r) n r m pad := by
  have hroom : n ≤ min m (8 - s.cur.toNat) :=
    (overflows_eq_false_iff ((numDigits_pos s.params.ndCap v r).trans hn)).1 hfit
  have hover : .overflow ∉ printDegraded s.params.ndCap s.cur.toNat n v r m :=
    mt (overflow_mem_printDegraded hr).1 (ne_true_of_eq_false hfit)
  exact
    { radix := fun h2 => absurd h2 (Nat.not_lt.2 hr)
      overflow := fun _ => overflow_mem_printDegraded hr
      run := fun _ h => absurd h hover
      digits := fun _ _ j hj => ⟨by omega, by omega, hdigits j hj (by omega)⟩
      blank := fun _ h => by
        obtain ⟨-, j, hj, hdigit⟩ := (blank_mem_printDegraded hr).1 h
        exact ⟨j, hj, hdigit, by omega, (hdigits j hj (by omega)).trans (positionGlyph_of_digit_ge _ hdigit)⟩
      table := fun _ _ h j hj =>
        Nat.lt_of_not_le fun hdigit => h ((blank_mem_printDegraded hr).2 ⟨hfit, j, hj, hdigit⟩)
      dropped := fun _ => (noop_mem_printDegraded hr).trans (positionsWritten_lt_iff hcur hwritten).symm }

end

theorem exec_printUnsigned_tells (W : WidthClass) (val : BitVec 32) (rdx mxd pad : Byte) {s : State}
    (hP : s.params.Admissible) (hcur : CursorInRange s) :
    ∃ t, exec (.printUnsigned W val rdx mxd pad) s = .next t ∧
      UnsignedOutcomes (unsignedDegraded W val rdx mxd s) s t W val rdx mxd pad := by
  obtain hr | hr := Nat.lt_or_ge rdx.toNat 2
  · obtain ⟨⟨t, hexec, hsilent⟩, -⟩ := radixBelowTwoIsSilent W val rdx mxd pad s hr
    exact ⟨t, hexec, .of_radix _ _ hr hsilent⟩
  cases hover : overflows s.cur.toNat (numDigits s.params.ndCap (cutValue W val) rdx.toNat) mxd.toNat with
  | true =>
    obtain ⟨t, hexec, -, hseg, htrace⟩ := overflowShowsMinusGlyphs W val rdx mxd pad s _ hr hP (.inl ⟨rfl, hover⟩)
    exact ⟨t, hexec, .of_overflow _ _ hr hcur hover (fun p => htrace ▸ budgetWrites_any ..) fun p hp => (hseg p hp).2⟩
  | false =>
    obtain ⟨t, hexec, -, hseg, htrace⟩ := unsignedPrintShowsTheDigits W val rdx mxd pad s hr hP hover
    refine ⟨t, hexec, .of_fits hr hcur hover le_rfl (fun p => htrace ▸ budgetWrites_any ..) fun j hj h8 => ?_⟩
    obtain ⟨_, hin⟩ := inBudget_of_fits hover hj
    rw [(hseg _ hin).2, Nat.add_sub_cancel_left]

/-- The second write of the sign position is no position more: it lies in the budget. -/
theorem exec_printSigned_tells (W : WidthClass) (val : BitVec 32) (rdx mxd : Byte) {s : State}
    (hP : s.params.Admissible) (hcur : CursorInRange s) :
    ∃ t, exec (.printSigned W val rdx mxd) s = .next t ∧
      SignedOutcomes (signedDegraded W val rdx mxd s) s t W val rdx mxd := by
  obtain hr | hr := Nat.lt_or_ge rdx.toNat 2
  · obtain ⟨-, t, hexec, hsilent⟩ := radixBelowTwoIsSilent W val rdx mxd 0 s hr
    exact ⟨t, hexec, .of_radix _ _ hr hsilent⟩
  cases hover : overflows s.cur.toNat (numDigits s.params.ndCap (magnitude W (cutValue W val)) rdx.toNat + 1) mxd.toNat with
  | true =>
    obtain ⟨t, hexec, -, hseg, htrace⟩ := overflowShowsMinusGlyphs W val rdx mxd 0 s _ hr hP (.inr ⟨rfl, hover⟩)
    exact ⟨t, hexec, .of_overflow _ _ hr hcur hover (fun p => htrace ▸ budgetWrites_any ..) fun p hp => (hseg p hp).2⟩
  | false =>
    obtain ⟨t, q, hexec, -, hq, hqin, hseg, htrace⟩ := signedPrintShowsDigitsAndSign W val rdx mxd s _ hr hP rfl hover
    refine ⟨t, hexec, .of_fits hr hcur hover (Nat.le_succ _) (fun p => ?written) fun j hj h8 => ?digit⟩
    case written =>
      rw [htrace, List.any_append, budgetWrites_any, List.any_cons, List.any_nil, Bool.or_false, writesDigit_wr_digitAddr]
      by_cases hp : q = p
      · rw [← hp, hqin, Bool.true_or]
      · rw [decide_eq_false hp, Bool.or_false]
    case digit =>
      obtain ⟨_, hin⟩ := inBudget_of_fits hover (Nat.lt_succ_of_lt hj)
      have hne : (⟨s.cur.toNat + j, h8⟩ : Position) ≠ q := fun heq => by
        have := congrArg Fin.val heq
        dsimp only at this
        omega
      rw [(hseg _ hin).2, if_neg hne, Nat.add_sub_cancel_left]

/-- Settles O60, command by command: an index command is silent out of range and speaks in range, a print goes one of its three
ways, and a command that cannot fail has no outcome to name. -/
theorem degradedOutcomesNameTheEffects : Obligations.DegradedOutcomesNameTheEffects := by
  intro i s hP hcur
  cases i with
  | enc a => exact exec_enc_tells a s
  | swpp a | swpl a =>
    exact noopOutcomes (fun h => outOfRangeIndexIsSilent a 0 s h _ (by simp)) fun h =>
      ⟨_, exec_swpp_of_lt (Nat.lt_of_not_le h) s, respond_speaks _ _⟩
  | setseg a b =>
    exact noopOutcomes (fun h => outOfRangeIndexIsSilent a b s h _ (by simp)) fun h =>
      ⟨_, exec_setseg a b s, (setSeg_rendersOne (Nat.lt_of_not_le h) b s).speaks⟩
  | setdig a b => exact exec_setdig_tells a b hP
  | doton a =>
    exact noopOutcomes (fun h => outOfRangeIndexIsSilent a 0 s h _ (by simp)) fun h =>
      ⟨_, exec_doton_of_lt (Nat.lt_of_not_le h) s, (render_rendersOne _ s s.seg _).speaks⟩
  | dotoff a =>
    exact noopOutcomes (fun h => outOfRangeIndexIsSilent a 0 s h _ (by simp)) fun h =>
      ⟨_, exec_dotoff_of_lt (Nat.lt_of_not_le h) s, (render_rendersOne _ s s.seg _).speaks⟩
  | setcur a => exact exec_setcur_tells a hcur
  | printu8 v r m p => exact exec_printUnsigned_tells .w8 v r m p hP hcur
  | printu16 v r m p => exact exec_printUnsigned_tells .w16 v r m p hP hcur
  | printu32 v r m p => exact exec_printUnsigned_tells .w32 v r m p hP hcur
  | prints8 v r m => exact exec_printSigned_tells .w8 v r m hP hcur
  | prints16 v r m => exact exec_printSigned_tells .w16 v r m hP hcur
  | prints32 v r m => exact exec_printSigned_tells .w32 v r m hP hcur
  | setled a b => exact exec_setled_tells a b s
  | ledson a b => exact exec_ledson_tells a b s
  | swpb | setdots | refresh | clear | ledsoff | getbtn => exact ⟨_, exec_eq_body _ s, rfl⟩

end Sys2Proof.Machine
end

section
/-! SUPPORT. The reset inside a command and the waiting core (R190, R191); and the number of transactions of every command
(R205): the writes of a command are a list of known length, so they are counted from what each command does to the trace. -/

namespace Sys2Proof.Machine

/-! ### Waiting, and the reset inside a command (R190, R191) -/

/-- Settles O9. -/
theorem idleCoreWaits : Obligations.IdleCoreWaits := fun _ h => step_idle h

/-- A reset inside a command aborts the step that would have performed the whole command. -/
theorem step_resetDuring {s : State} {w : CommandWord} {done : Nat} {rest : List HostMove}
    (h : s.pending = .resetDuring w done :: rest) :
    step s = afterNext (abortedBy done) (step { s with pending := .command w :: rest }) :=
  step_move h

/-- Settles O11: the step of the whole command answers a next state, and the reset aborts that one. -/
theorem resetInsideACommandCutsItsTrace : Obligations.ResetInsideACommandCutsItsTrace := by
  intro s w done rest h
  obtain ⟨u, hu, hpending, hparams⟩ := everyStepAnswersNext { s with pending := .command w :: rest }
  have hs : step s = .next (abortedBy done u) := by rw [step_resetDuring h, hu, afterNext]
  have hseg : ∀ p : Position, (abortedBy done u).seg[p.val] = 0 := fun p => by
    rw [abortedBy_seg, Vector.getElem_replicate]
  exact ⟨abortedBy done u, u, hs, hu, abortedBy_trace .., rfl, hseg, rfl, rfl, hpending, hparams, fun _ => rfl⟩

/-! ### Counting the transactions of a trace (R205) -/

theorem transactionCounts_append (tr tr' : List Transaction) :
    transactionCounts (tr ++ tr') = transactionCounts tr + transactionCounts tr' := by
  simp only [transactionCounts, List.countP_append, List.count_append, Prod.mk_add_mk]

theorem transactionCounts_map_wr {α : Type} (addr : α → RegAddr) (val : α → Byte) (xs : List α) :
    transactionCounts (xs.map fun x => .wr (addr x) (val x)) = (xs.length, 0, 0) := by
  induction xs with
  | nil => rfl
  | cons x xs ih =>
    have hone : transactionCounts [.wr (addr x) (val x)] = (1, 0, 0) := rfl
    rw [List.map_cons, ← List.singleton_append, transactionCounts_append, ih, hone, List.length_cons, Prod.mk_add_mk,
      Nat.add_comm]
    rfl

section

variable {s t : State}

theorem SilentNoop.counts (h : SilentNoop s t) : transactionCounts t.trace = (0, 0, 0) := congrArg transactionCounts h.trace

theorem RendersOne.counts {p : Position} (h : RendersOne s t p) : transactionCounts t.trace = (1, 0, 0) :=
  congrArg transactionCounts h.trace

theorem RendersEight.counts (h : RendersEight s t) : transactionCounts t.trace = (8, 0, 0) := by
  rw [h.trace, transactionCounts_map_wr]
  rfl

theorem WritesLeds.counts {lit : LedIndex → Bool} {v : Byte} (h : WritesLeds s t lit v) :
    transactionCounts t.trace = (ascending.countP lit, 0, 0) := by
  rw [h.trace, transactionCounts_map_wr, List.countP_eq_length_filter]

end

/-- The command completes, with `n` transactions by kind. -/
def Emits (i : Instr) (s : State) (n : Nat × Nat × Nat) : Prop := ∃ t, exec i s = .next t ∧ transactionCounts t.trace = n

/-- A command that writes `n` times under the condition `c`, and is a silent no-op otherwise. -/
theorem emits_guarded {c : Prop} [Decidable c] {i : Instr} {s : State} {n : Nat} (hwrites : c → Emits i s (n, 0, 0))
    (hsilent : ¬ c → ∃ t, exec i s = .next t ∧ SilentNoop s t) : Emits i s (if c then n else 0, 0, 0) := by
  by_cases hc : c
  · rw [if_pos hc]
    exact hwrites hc
  · rw [if_neg hc]
    obtain ⟨t, hexec, ht⟩ := hsilent hc
    exact ⟨t, hexec, ht.counts⟩

/-- A command with a position operand renders the position when it is one of the display. -/
theorem emits_one_of_rendersOne {a : Byte} {i : Instr} {s : State}
    (hrender : ∀ h : a.toNat < 8, ∃ t, exec i s = .next t ∧ RendersOne s t ⟨a.toNat, h⟩)
    (hsilent : 8 ≤ a.toNat → ∃ t, exec i s = .next t ∧ SilentNoop s t) :
    Emits i s (if a.toNat ≤ 7 then 1 else 0, 0, 0) := by
  refine emits_guarded (fun h => ?_) fun h => hsilent (Nat.lt_of_not_le h)
  obtain ⟨t, hexec, ht⟩ := hrender (Nat.lt_succ_of_le h)
  exact ⟨t, hexec, ht.counts⟩

/-! ### The board driver (R150 to R152) -/

theorem setled_emits (a b : Byte) (s : State) : Emits (.setled a b) s (if a.toNat ≤ 7 ∧ b.toNat ≤ 2 then 1 else 0, 0, 0) := by
  refine emits_guarded (fun ⟨ha, hb⟩ => ?writes) fun h => ?silent
  case writes => exact ⟨_, exec_setled_of_legal (Nat.lt_succ_of_le ha) (legalColor_of_le hb) s, rfl⟩
  case silent =>
    obtain ha | hb := not_and_or.1 h
    · exact outOfRangeIndexIsSilent a b s (Nat.lt_of_not_le ha) _ (by simp)
    · exact illegalColorIsSilent a b s (Nat.lt_of_not_le hb) _ (by simp)

theorem ledson_emits (a b : Byte) (s : State) : Emits (.ledson a b) s (if b.toNat ≤ 2 then onesOf a else 0, 0, 0) := by
  refine emits_guarded (fun hb => ?writes) fun hb => illegalColorIsSilent a b s (Nat.lt_of_not_le hb) _ (by simp)
  case writes =>
    obtain ⟨t, hexec, ht⟩ := (ledMaskCommandsWriteTheSelected a b s).1 hb
    exact ⟨t, hexec, ht.counts⟩

theorem ledsoff_emits (a : Byte) (s : State) : Emits (.ledsoff a) s (onesOf a, 0, 0) := by
  obtain ⟨t, hexec, ht⟩ := (ledMaskCommandsWriteTheSelected a 0 s).2
  exact ⟨t, hexec, ht.counts⟩

/-! ### The prints (R122 to R125, R133) -/

/-- The loop writes every position of the budget that is on the display. -/
theorem paint_counts (g : Nat → Byte) (m : Nat) (s : State) :
    transactionCounts (paintFrom g m 0 (beginCommand s)).trace = (min m (8 - s.cur.toNat), 0, 0) := by
  rw [paintFrom_trace, beginCommand_trace, List.nil_append, transactionCounts_map_wr, budgetPositions_length,
    beginCommand_cur, Nat.add_zero]

/-- Behind the radix guard an unsigned print is the loop, over the minus glyph or over the digits. -/
theorem printUnsigned_emits (W : WidthClass) (val : BitVec 32) (rdx mxd pad : Byte) (s : State) :
    Emits (.printUnsigned W val rdx mxd pad) s (unsignedWrites rdx mxd s, 0, 0) := by
  refine emits_guarded (fun hr => ⟨_, exec_printUnsigned .., ?loop⟩) fun hr =>
    (radixBelowTwoIsSilent W val rdx mxd pad s (Nat.lt_of_not_le hr)).1
  case loop =>
    cases hover : overflows s.cur.toNat (numDigits s.params.ndCap (cutValue W val) rdx.toNat) mxd.toNat with
    | true => rw [printUnsigned_of_overflow _ hr hover, paint_counts]
    | false => rw [printUnsigned_of_fits _ hr hover, paint_counts]

/-- A signed print that fits writes the sign position once more than its loop, and that position is on the display (R125). -/
theorem printSigned_of_fits_counts {W : WidthClass} {x r m : Nat} {s : State} (hr : 2 ≤ r)
    (hfit : overflows s.cur.toNat (numDigits s.params.ndCap (magnitude W x) r + 1) m = false) :
    transactionCounts (printSigned W x r m (beginCommand s)).trace = (min m (8 - s.cur.toNat) + 1, 0, 0) := by
  obtain ⟨h8, -⟩ := inBudget_of_fits hfit (Nat.lt_succ_self _)
  rw [printSigned_of_fits hr hfit, setSeg_trace, dif_pos h8, transactionCounts_append, paint_counts]
  rfl

theorem printSigned_emits (W : WidthClass) (val : BitVec 32) (rdx mxd : Byte) (s : State) :
    Emits (.printSigned W val rdx mxd) s (signedWrites W val rdx mxd s, 0, 0) := by
  rw [signedWrites, unsignedWrites]
  obtain hr | hr := Nat.lt_or_ge rdx.toNat 2
  · obtain ⟨-, t, hexec, ht⟩ := radixBelowTwoIsSilent W val rdx mxd 0 s hr
    rw [if_neg (Nat.not_le.2 hr), if_neg (fun h => Nat.not_le.2 hr h.1)]
    exact ⟨t, hexec, ht.counts⟩
  refine ⟨_, exec_printSigned .., ?_⟩
  rw [if_pos hr]
  cases hover : overflows s.cur.toNat (numDigits s.params.ndCap (magnitude W (cutValue W val)) rdx.toNat + 1) mxd.toNat with
  | true => rw [printSigned_of_overflow hr hover, paint_counts, if_neg (fun h => Bool.noConfusion h.2), Nat.add_zero]
  | false => rw [printSigned_of_fits_counts hr hover, if_pos ⟨hr, rfl⟩]

/-- Settles O24, command by command: a look-up and `SETCUR` emit nothing, an index command writes once in range, and the loops
write once for every position or LED they select. -/
theorem transactionCountsAsTabulated : Obligations.TransactionCountsAsTabulated := by
  intro i s
  change Emits i s (expectedCounts i s)
  cases i with
  | enc | swpb | clear | getbtn => exact ⟨_, exec_eq_body _ s, rfl⟩
  | swpp | swpl | setcur =>
    refine ⟨_, exec_eq_body _ s, ?_⟩
    simp only [body]
    split <;> rfl
  | setseg a b =>
    exact emits_one_of_rendersOne (fun h => ⟨_, exec_setseg a b s, setSeg_rendersOne h b s⟩) fun h =>
      outOfRangeIndexIsSilent a b s h _ (by simp)
  | setdig a b =>
    exact emits_one_of_rendersOne (fun h => ⟨_, exec_setdig a b s, setSeg_rendersOne h _ s⟩) fun h =>
      outOfRangeIndexIsSilent a b s h _ (by simp)
  | doton a =>
    exact emits_one_of_rendersOne (fun h => ⟨_, exec_doton_of_lt h s, render_rendersOne _ s s.seg _⟩) fun h =>
      outOfRangeIndexIsSilent a 0 s h _ (by simp)
  | dotoff a =>
    exact emits_one_of_rendersOne (fun h => ⟨_, exec_dotoff_of_lt h s, render_rendersOne _ s s.seg _⟩) fun h =>
      outOfRangeIndexIsSilent a 0 s h _ (by simp)
  | setdots a => exact ⟨_, exec_setdots a s, (renderAll_rendersEight s a).counts⟩
  | refresh => exact ⟨_, exec_refresh s, (renderAll_rendersEight s s.dots).counts⟩
  | printu8 v r m p => exact printUnsigned_emits .w8 v r m p s
  | printu16 v r m p => exact printUnsigned_emits .w16 v r m p s
  | printu32 v r m p => exact printUnsigned_emits .w32 v r m p s
  | prints8 v r m => exact printSigned_emits .w8 v r m s
  | prints16 v r m => exact printSigned_emits .w16 v r m s
  | prints32 v r m => exact printSigned_emits .w32 v r m s
  | setled a b => exact setled_emits a b s
  | ledson a b => exact ledson_emits a b s
  | ledsoff a => exact ledsoff_emits a s

end Sys2Proof.Machine
end
